-- ==== Sys2Proof/Word.lean ====
section
/-! DEFINITION. The words OTPE's port and registers are made of (00_scope.md R7, R10). -/

namespace Sys2Proof

/-- One byte of a byte sequence (R10). -/
abbrev Byte := BitVec 8

/-- One word of the host port, `XLEN_PORT` bits (R7). -/
abbrev Word := BitVec 32

/-- A 64-bit register, two port words (R11, R79). -/
abbrev DWord := BitVec 64

end Sys2Proof
end

