-- ==== Sys2Proof/Config.lean ====
section
/-! DEFINITION. What is fixed for OTPE version 1 (00_scope.md R7), and the free values the spec leaves open
(93_implementation_defined.md U1, U3, U4): constants without a body, so that no proof can see what they are. -/

namespace Sys2Proof

/-- The digest algorithms (R27, decision D24): ACT_ALG holds one of these three and nothing else (R33, U14; log 15). -/
inductive Alg where
  | sha1
  | sha256
  | sha512
  deriving DecidableEq, Repr

/-- The record the HMAC unit delivers: a byte sequence of length 64 = `DIGEST_MAX` (R7, R92). -/
abbrev Digest := Vector Byte 64

namespace Config

/-- `SECRET_MAX` (R7): capacity of the secret buffer in bytes. -/
def secretMax : Nat := 128

/-- `SIDE_MAX` (R7): the largest number of past steps, and of future steps, in one window. -/
def sideMax : Nat := 127

/-- `WIN_CAP` (R7): entries of the window RAM. -/
def winCap : Nat := 255

/-- `DIGEST_MAX` (R7): bytes of the digest buffer. -/
def digestMax : Nat := 64

/-- `CODE_FIELD` (R7): bytes reserved for one code. -/
def codeField : Nat := 12

/-- `ID_VALUE` (R7, R24). -/
def idValue : Word := 0x31544D01#32

/-- `CAP_VALUE` (R7, R25). -/
def capValue : Word := 0x00FF7F80#32

/-- Free value (U3, R93, log 5): the record an HMAC unit that keeps its platform duty delivers for (alg, key, msg).
The first `L(alg)` bytes are the `Hmac` of R93; the rest is whatever the unit puts there (R92). -/
opaque hmac : Alg → List Byte → List Byte → Digest

/-- Free value (U4, R99, log 3): the clock sample of draw number `k`, where no input gave the pin a value. -/
opaque clockSample : Nat → DWord

/-- Free value (U1, R75, log 4): what the port returns for an unspecified read, draw number `k`. -/
opaque busyRead : Nat → Word

end Config
end Sys2Proof
end

