-- ==== Sys2Proof/Machine/State.lean ====
section
/-! DEFINITION. The state of OTPE (10_state.md R20, R62), the pins and agents around it as plain data (00_scope.md R15),
the reasons a step could stop, and the state after reset. -/

namespace Sys2Proof.Machine

/-- No step of OTPE faults: every word, register value and host transaction has a defined effect (60_exceptions.md R220,
93_implementation_defined.md Part 1), so nobody raises a fault and the type is empty. -/
inductive Fault
  deriving DecidableEq, Repr

/-- Why a step has no meaning. -/
inductive Refusal where
  /-- Raised by an arm of `exec` whose instruction has no meaning yet; no arm of this model raises it. Safe: the run stops. -/
  | notModelled (mnemonic : String)
  deriving DecidableEq, Repr

/-- `PHASE` (R56). -/
inductive Phase where
  | idle
  | decode
  | req
  | wait
  deriving DecidableEq, Repr

/-- The error codes of R200. `ERRCODE` never holds 5 to 15 (U14, log 15). -/
inductive ErrCode where
  | none
  | illegal
  | config
  | secret
  | range
  deriving DecidableEq, Repr

/-- The stored fields of `STATUS` (R21). -/
structure Status where
  busy : Bool
  done : Bool
  err : Bool
  errcode : ErrCode
  wdrop : Bool
  deriving DecidableEq, Repr

/-- The staged configuration `CFG_*`: plain storage, all bits kept (R27 to R32). -/
structure Staged where
  alg : Word
  digits : Word
  stepSeconds : Word
  startTime : DWord
  past : Word
  future : Word
  deriving DecidableEq, Repr

/-- The active configuration `ACT_*` with the stored widths of R33. -/
structure Active where
  alg : Alg
  digits : BitVec 4
  stepSeconds : Word
  startTime : DWord
  past : BitVec 7
  future : BitVec 7
  deriving DecidableEq, Repr

/-- One `HmacRequest(alg, key, msg)` (R91). -/
structure HmacReq where
  alg : Alg
  key : List Byte
  msg : List Byte
  deriving DecidableEq, Repr

/-- What an agent does in one atomic step (R15, R81; log 1). -/
inductive Event where
  /-- host: `read(widx)` (R72) -/
  | read (widx : BitVec 11)
  /-- host: `write(widx, data)` (R73) -/
  | write (widx : BitVec 11) (data : Word)
  /-- platform: the reset pin takes this level (R101, R230; log 8) -/
  | rstn (level : Bool)
  /-- platform: the clock port shows this value from now on (R98; log 3) -/
  | clock (t : DWord)
  /-- HMAC unit: delivers a record, whatever it holds (R92; log 5, log 6) -/
  | deliver (d : Digest)
  /-- HMAC unit that keeps its duty: answers its oldest request (R93; log 5) -/
  | answer
  /-- platform: the HMAC unit is reset or drained (R244; log 6) -/
  | drain
  /-- engine sequencer: takes its enabled step, if it has one (R126 to R129) -/
  | turn
  deriving DecidableEq, Repr

/-- The byte buffers and the window RAM by OTPE byte address (R20, R78; log 16): rising addresses, no zero byte listed. -/
abbrev Memory := List Host.Cell

/-- The state of OTPE and of the agents around it. Plain data. -/
structure State where
  /-- `PHASE` (R56) -/
  phase : Phase
  /-- `IR` (R26) -/
  ir : Word
  /-- `IDX` (R57; log 13) -/
  idx : Nat
  /-- `N` (R57; log 13) -/
  n : Nat
  /-- `MSG0` (R58) -/
  msg0 : DWord
  /-- `STATUS` (R21) -/
  status : Status
  /-- `CTRL.IE` (R22) -/
  ie : Bool
  /-- `RESULT` (R23) -/
  result : Word
  /-- `CFG_*` (R27 to R32) -/
  cfg : Staged
  /-- `ACT_*` (R33) -/
  act : Active
  /-- `COUNTER` (R34) -/
  counter : DWord
  /-- `SECRET_LEN` (R35) -/
  secretLen : Word
  /-- `CAND_LEN` (R37) -/
  candLen : Word
  /-- `NOW` (R43) -/
  now : DWord
  /-- the register `STEP` (R44) -/
  stepReg : DWord
  /-- `VALUE` (R42) -/
  value : Word
  /-- `DBC`, bits 30:0 (R41) -/
  dbc : BitVec 31
  /-- `WCOUNT`, bits 7:0 (R45) -/
  wcount : BitVec 8
  /-- `CAND` (R38), `CODE` (R40), `DIGEST` (R39), `SECRET` (R36) and `WIN` (R46), byte by byte -/
  mem : Memory
  /-- the input `rst_n` (R101; log 8) -/
  rstN : Bool
  /-- the input `now[63:0]`, where the platform's value is known (R98; log 3) -/
  clockPin : Option DWord
  /-- the record the HMAC unit presents in this step (R92; log 5) -/
  rsp : Option Digest
  /-- requests the HMAC unit holds unanswered, oldest first (R91, R244; log 6) -/
  owed : List HmacReq
  /-- the word the port returned for the latest read (R72; log 9) -/
  readData : Option Word
  /-- how many free values have been drawn (R75, R99; log 12) -/
  draws : Nat
  /-- what the agents do next, in order (R81; log 1) -/
  inputs : List Event
  deriving DecidableEq, Repr

/-- `STATUS` right after reset (R21, R62). -/
def Status.reset : Status := { busy := false, done := false, err := false, errcode := .none, wdrop := false }

/-- The staged configuration right after reset: the defaults of R8 (R62). -/
def Staged.reset : Staged :=
  { alg := 0#32, digits := 6#32, stepSeconds := 30#32, startTime := 0#64, past := 0#32, future := 0#32 }

/-- The active configuration right after reset: the defaults of R8 (R62). -/
def Active.reset : Active :=
  { alg := .sha1, digits := 6#4, stepSeconds := 30#32, startTime := 0#64, past := 0#7, future := 0#7 }

/-- The machine right after reset (R62, R231), its pin released (R230), the agents around it with nothing to do (log 12). -/
def State.reset : State :=
  { phase := .idle, ir := 0#32, idx := 0, n := 0, msg0 := 0#64
    status := Status.reset, ie := false, result := 0#32
    cfg := Staged.reset, act := Active.reset
    counter := 0#64, secretLen := 0#32, candLen := 0#32
    now := 0#64, stepReg := 0#64, value := 0#32, dbc := 0#31, wcount := 0#8
    mem := []
    rstN := true, clockPin := none, rsp := none, owed := [], readData := none, draws := 0, inputs := [] }

end Sys2Proof.Machine
end

