-- ==== Sys2Proof/Machine/Ops.lean ====
section
/-! DEFINITION. The named operations over memory and registers: byte memory and lanes (20_memory.md R78), BE8
(40_truncation.md R141), acceptance (30_encoding.md R125), completion and raising (60_exceptions.md R202, R203), the
reset action (70_reset_and_hazards.md R231), the clock sample (20_memory.md R98) and the HMAC request (30_encoding.md R128). -/

namespace Sys2Proof.Machine

/-! ## The byte memory -/

/-- The byte at an address; an address that is not listed reads 0x00, the reset contents (R62). -/
def Memory.read : Memory → Nat → Byte
  | [], _ => 0#8
  | c :: m, a => if c.1 = a then c.2 else Memory.read m a

/-- The memory without an entry for the address. -/
def Memory.erase (m : Memory) (a : Nat) : Memory := m.filter fun c => c.1 ≠ a

/-- The memory with an entry put before the first higher address. -/
def Memory.insert : Memory → Nat → Byte → Memory
  | [], a, v => [(a, v)]
  | c :: m, a, v => if a < c.1 then (a, v) :: c :: m else c :: Memory.insert m a v

/-- Write one byte, keeping the canonical form: a zero byte is not listed. -/
def Memory.write (m : Memory) (a : Nat) (v : Byte) : Memory :=
  if v = 0#8 then m.erase a else (m.erase a).insert a v

/-- The canonical form: addresses strictly rising, no byte equal to what an unlisted address reads as. -/
def Memory.wf : Memory → Bool
  | [] => true
  | [c] => c.2 != 0#8
  | c :: d :: m => c.2 != 0#8 && decide (c.1 < d.1) && Memory.wf (d :: m)

/-- Write a byte sequence from an address upward. -/
def Memory.writeBytes (m : Memory) : Nat → List Byte → Memory
  | _, [] => m
  | a, b :: bs => Memory.writeBytes (m.write a b) (a + 1) bs

/-- The byte sequence of length `k` from an address upward. -/
def Memory.readBytes (m : Memory) (a k : Nat) : List Byte := (List.range k).map fun j => m.read (a + j)

/-- Byte `j` of a word: the lane of bits `8j+7 : 8j` (R78). -/
def lane (v : Word) (j : Nat) : Byte := v.extractLsb' (8 * j) 8

/-- The four bytes of a word, lowest lane first (R78). -/
def wordBytes (v : Word) : List Byte := [lane v 0, lane v 1, lane v 2, lane v 3]

/-- The port word at a byte address: the byte with the lowest address in the least-significant lane (R78). -/
def Memory.readWord (m : Memory) (a : Nat) : Word := m.read (a + 3) ++ m.read (a + 2) ++ m.read (a + 1) ++ m.read a

/-- Replace the four bytes at a byte address by the lanes of a word (R73, R78). -/
def Memory.writeWord (m : Memory) (a : Nat) (v : Word) : Memory := m.writeBytes a (wordBytes v)

/-! ## Where the buffers lie (10_state.md R20) -/

/-- `CAND[0]` (R38). -/
def candBase : Nat := 0x070

/-- `CODE[0]` (R40). -/
def codeBase : Nat := 0x098

/-- `DIGEST[0]` (R39). -/
def digestBase : Nat := 0x0C0

/-- `SECRET[0]` (R36). -/
def secretBase : Nat := 0x100

/-- Byte 0 of window entry `i` (R46, R88). -/
def winEntry (i : Nat) : Nat := 0x1000 + 16 * i

/-! ## 64-bit values -/

/-- `BE8(c)`: eight bytes, most significant first (R141). -/
def be8 (c : DWord) : List Byte := (List.range 8).map fun j => c.extractLsb' (8 * (7 - j)) 8

/-- The `_LO` word (R79). -/
def loWord (x : DWord) : Word := x.extractLsb' 0 32

/-- The `_HI` word (R79). -/
def hiWord (x : DWord) : Word := x.extractLsb' 32 32

/-- Replace the `_LO` word (R79). -/
def setLo (x : DWord) (v : Word) : DWord := hiWord x ++ v

/-- Replace the `_HI` word (R79). -/
def setHi (x : DWord) (v : Word) : DWord := v ++ loWord x

/-! ## Acceptance, completion, raising -/

/-- Acceptance of a command word (R125). -/
def accept (w : Word) (s : State) : State :=
  { s with
    ir := w
    status := { s.status with busy := true, done := false, err := false, errcode := .none }
    result := 0#32
    phase := .decode }

/-- `Complete(code)`, the one way a command ends (R202). -/
def complete (code : ErrCode) (s : State) : State :=
  { s with
    status := { s.status with busy := false, done := true, errcode := code, err := decide (code ≠ .none) }
    phase := .idle }

/-- `raise E_x`: `Complete(x)` instead of the rest of the arm (R203). It is OTPE's taking of an exception: nothing is
saved anywhere, there is no vector and no mode, and control goes to IDLE (R205); there is no return from it (R212). -/
def raise (code : ErrCode) (s : State) : State := complete code s

/-! ## Reset -/

/-- The reset action (R231): every item of OTPE's state takes its value of R62. The pins, the HMAC unit and the other
agents are outside OTPE and stay (R244; log 6, log 12). -/
def resetAction (s : State) : State :=
  { State.reset with
    rstN := s.rstN, clockPin := s.clockPin, owed := s.owed, readData := s.readData, draws := s.draws, inputs := s.inputs }

/-! ## The clock and the HMAC port -/

/-- The value `SampleNow()` answers (R98): the pin's, and a free value where no input gave one (R99, log 3). -/
def clockNow (s : State) : DWord := s.clockPin.getD (Config.clockSample s.draws)

/-- The state after a draw: only the model's own counter moves (R203: a sample changes no state; log 12). -/
def drawn (s : State) : State := { s with draws := s.draws + 1 }

/-- `HmacRequest(alg, key, msg)` (R91): the unit now holds the request, and the sequencer waits (R128). -/
def issue (r : HmacReq) (s : State) : State := { s with owed := s.owed ++ [r], phase := .wait }

end Sys2Proof.Machine
end

