-- ==== Sys2Proof/Machine/Operands.lean ====
section
/-! DEFINITION. The operand forms a command reads (10_state.md R61, 20_memory.md R88): the secret, the digest, the
candidate, the window sides, and the staged digest algorithm. -/

namespace Sys2Proof.Machine

/-- `L(alg)` (R7): the digest length of an algorithm in bytes. -/
def digestLen : Alg → Nat
  | .sha1 => 20
  | .sha256 => 32
  | .sha512 => 64

/-- The code of an algorithm, as `ACT_ALG` and the HMAC request carry it (R27, R91). -/
def algCode : Alg → Word
  | .sha1 => 0#32
  | .sha256 => 1#32
  | .sha512 => 2#32

/-- The algorithm a full 32-bit word of `CFG_ALG` names, if it names one (R27, R185). -/
def algOf (w : Word) : Option Alg :=
  if w = 0#32 then some .sha1 else if w = 1#32 then some .sha256 else if w = 2#32 then some .sha512 else none

/-- `d`, the active digit count (R33). -/
def digitsOf (s : State) : Nat := s.act.digits.toNat

/-- `L(ACT_ALG)` (R33). -/
def lenOf (s : State) : Nat := digestLen s.act.alg

/-- `SECRET[0..SECRET_LEN-1]` (R36). -/
def secretKey (s : State) : List Byte := s.mem.readBytes secretBase s.secretLen.toNat

/-- `SECRET_LEN > 128`, on the full unsigned register (R126). -/
def secretTooLong (s : State) : Bool := decide (Config.secretMax < s.secretLen.toNat)

/-- `DIGEST[0..L-1]` (R145). -/
def digestOperand (s : State) : List Byte := s.mem.readBytes digestBase (lenOf s)

/-- `D[0..L-1]`, the used bytes of a delivered record (R92). -/
def usedBytes (s : State) (d : Digest) : List Byte := d.toList.take (lenOf s)

/-- `Clamp0(x) = max(x, 0)` (R161); the integer's non-negative part. -/
def clamp0 (x : Int) : Nat := x.toNat

/-- The request for window position `IDX` (R128, R91). -/
def requestFor (s : State) : HmacReq :=
  { alg := s.act.alg, key := secretKey s, msg := be8 (s.msg0 + BitVec.ofNat 64 s.idx) }

end Sys2Proof.Machine
end

