-- ==== Sys2Proof/Machine/Flags.lean ====
section
/-! DEFINITION. The status words a host reads (10_state.md R21 to R23) and the interrupt output (60_exceptions.md R210). -/

namespace Sys2Proof.Machine

/-- The number of an error code (R200). -/
def ErrCode.code : ErrCode → BitVec 4
  | .none => 0#4
  | .illegal => 1#4
  | .config => 2#4
  | .secret => 3#4
  | .range => 4#4

/-- `STATUS` as a word (R21): `BUSY` 0, `DONE` 1, `ERR` 2, `ERRCODE` 7:4, `WDROP` 8, the rest 0. -/
def Status.word (t : Status) : Word :=
  0#23 ++ BitVec.ofBool t.wdrop ++ t.errcode.code ++ 0#1 ++ BitVec.ofBool t.err ++ BitVec.ofBool t.done ++ BitVec.ofBool t.busy

/-- A host write to `STATUS` (R21, R73): bits 1 and 8 clear `DONE` and `WDROP`, nothing else. -/
def Status.writeOneToClear (t : Status) (v : Word) : Status :=
  { t with done := t.done && !v.getLsbD 1, wdrop := t.wdrop && !v.getLsbD 8 }

/-- `CTRL` as a word (R22): `IE` in bit 0, `SRST` and the reserved bits read 0. -/
def ctrlWord (s : State) : Word := 0#31 ++ BitVec.ofBool s.ie

/-- `RESULT` for an outcome (R176): `Success(o)` has `VALID`, `MATCH` and the 8-bit pattern of `o` in bits 15:8,
`Invalid` has `VALID` alone. -/
def resultWord : Option Int → Word
  | some o => 0#16 ++ BitVec.ofInt 8 o ++ 0x03#8
  | none => 0x00000001#32

/-- The output `irq` (R101, R210): `CTRL.IE and STATUS.DONE`. -/
def irq (s : State) : Bool := s.ie && s.status.done

end Sys2Proof.Machine
end

