-- ==== Sys2Proof/Machine/Truncation.lean ====
section
/-! DEFINITION. The truncation family (40_truncation.md): Pow10, Dbc, Truncate, Format, CodeField and the command `TRUNC`. -/

namespace Sys2Proof.Machine

/-- `Pow10(d)` (R140). -/
def pow10 (d : Nat) : Nat := 10 ^ d

/-- The offset of dynamic truncation: the low nibble of the last byte (R142). -/
def truncOffset (h : List Byte) : Nat := ((h.getD (h.length - 1) 0#8) &&& 0x0F#8).toNat

/-- The four bytes at the offset as a big-endian 32-bit unsigned integer, `P` (R142). -/
def truncWindow (h : List Byte) : Word :=
  let o := truncOffset h
  h.getD o 0#8 ++ h.getD (o + 1) 0#8 ++ h.getD (o + 2) 0#8 ++ h.getD (o + 3) 0#8

/-- `Dbc(H) = P & 0x7FFFFFFF` (R142), its 31 bits (R146). -/
def dbcOf (h : List Byte) : BitVec 31 := (truncWindow h).setWidth 31

/-- `Truncate(H, d) = Dbc(H) mod Pow10(d)` (R143). -/
def truncateValue (h : List Byte) (d : Nat) : Nat := (dbcOf h).toNat % pow10 d

/-- `Format(V, d)`: `d` ASCII digits, most significant first, zero-padded on the left (R144). -/
def formatCode (v d : Nat) : List Byte := (List.range d).map fun k => BitVec.ofNat 8 (0x30 + v / 10 ^ (d - 1 - k) % 10)

/-- `CodeField(V, d)`: `Format(V, d)` and zero bytes up to 12 (R144). The field has 12 bytes whatever `d` (log 11). -/
def codeFieldOf (v d : Nat) : List Byte := (formatCode v d ++ List.replicate (Config.codeField - d) 0#8).take Config.codeField

/-- Truncate a digest into `DBC`, `VALUE` and `CODE` (R129, R145). -/
def truncateInto (h : List Byte) (s : State) : State :=
  { s with
    dbc := dbcOf h
    value := BitVec.ofNat 32 (truncateValue h (digitsOf s))
    mem := s.mem.writeBytes codeBase (codeFieldOf (truncateValue h (digitsOf s)) (digitsOf s)) }

/-- A command that ends in its decode step (R131): its arm is enabled in DECODE only (log 11). -/
def atDecode (arm : State → State) (s : State) : State := if s.phase = .decode then arm s else s

/-- The `TRUNC` arm (R145). -/
def truncArm (s : State) : State := complete .none (truncateInto (digestOperand s) s)

/-- `TRUNC` (R145). -/
def execTrunc (s : State) : Host.Outcome State Fault Refusal := .next (atDecode truncArm s)

end Sys2Proof.Machine
end

