-- ==== Sys2Proof/Machine/Construct.lean ====
section
/-! DEFINITION. The command `INIT`, construction of a generator (44_config.md). -/

namespace Sys2Proof.Machine

/-- The tests of `ConfigValid` (R185) but the one on `CFG_ALG`, which `algOf` makes. -/
def stagedInRange (c : Staged) : Bool :=
  decide (6 ≤ c.digits.toNat) && decide (c.digits.toNat ≤ 10) && decide (1 ≤ c.stepSeconds.toInt) &&
    decide (0 ≤ c.past.toInt) && decide (c.past.toInt ≤ Config.sideMax) &&
    decide (0 ≤ c.future.toInt) && decide (c.future.toInt ≤ Config.sideMax)

/-- The active configuration a valid staged one gives, and nothing for an invalid one (R185, R186). -/
def construct (c : Staged) : Option Active :=
  match algOf c.alg with
  | none => none
  | some a =>
    if stagedInRange c then
      some { alg := a, digits := c.digits.setWidth 4, stepSeconds := c.stepSeconds, startTime := c.startTime
             past := c.past.setWidth 7, future := c.future.setWidth 7 }
    else none

/-- `ConfigValid` (R185). -/
abbrev ConfigValid (c : Staged) : Prop := (construct c).isSome = true

/-- The `INIT` arm of the decode step (R186, R187). -/
def initArm (s : State) : State :=
  match construct s.cfg with
  | some a => complete .none { s with act := a }
  | none => raise .config s

/-- `INIT` (R186). -/
def execInit (s : State) : Host.Outcome State Fault Refusal := .next (atDecode initArm s)

end Sys2Proof.Machine
end

