-- ==== Sys2Proof/Machine/Lifecycle.lean ====
section
/-! DEFINITION. The life of a command that uses the HMAC unit (30_encoding.md R126 to R131): the common check of the
decode step, the request step, the wait step, and the clock-derived window start shared by `TOTP` and `VERIFY`. -/

namespace Sys2Proof.Machine

/-- Check 2 of the decode step (R126): `E_SECRET` where `SECRET_LEN > 128`, else the rest of the arm. -/
def secretChecked (rest : State → State) (s : State) : State :=
  if secretTooLong s then raise .secret s else rest s

/-- The request step (R128). -/
def requestStep (s : State) : State := issue (requestFor s) s

/-- The entry of `WIN[IDX]` (R46, R129): `CHARS` as `CODE`, then `VALUE`. -/
def winBytes (s : State) (h : List Byte) : List Byte :=
  codeFieldOf (truncateValue h (digitsOf s)) (digitsOf s) ++ wordBytes (BitVec.ofNat 32 (truncateValue h (digitsOf s)))

/-- `DIGEST <- D[0..L-1]`, zero-filled above (R129). -/
def storeDigest (h : List Byte) (s : State) : State :=
  { s with mem := s.mem.writeBytes digestBase (h ++ List.replicate (Config.digestMax - h.length) 0#8) }

/-- `WIN[IDX] <- CODE, VALUE` for the commands that fill the window (R129). -/
def storeWin (windowed : Bool) (h : List Byte) (s : State) : State :=
  if windowed then { s with mem := s.mem.writeBytes (winEntry s.idx) (winBytes s h) } else s

/-- What the wait step stores of a digest (R129). -/
def storeCode (windowed : Bool) (h : List Byte) (s : State) : State :=
  storeWin windowed h (truncateInto h (storeDigest h s))

/-- The end of the wait step (R129): the next position, or finalise (R130). -/
def advance (last : State → State) (s : State) : State :=
  if s.idx + 1 < s.n then { s with idx := s.idx + 1, phase := .req } else last { s with idx := s.idx + 1 }

/-- The wait step (R129): enabled when the unit presents a record; with none the phase is stuck (R95, log 2). -/
def waitStep (windowed : Bool) (last : State → State) (s : State) : State :=
  match s.rsp with
  | none => s
  | some d => advance last (storeCode windowed (usedBytes s d) { s with rsp := none })

/-- One sequencer step of a running command that uses the HMAC unit, by phase (R126, R128, R129). -/
def hmacCommand (windowed : Bool) (start last : State → State) (s : State) : State :=
  match s.phase with
  | .idle => s
  | .decode => secretChecked start s
  | .req => requestStep s
  | .wait => waitStep windowed last s

/-! ## Steps of time -/

/-- `CurrentStep(t, start, stepSec)` (R160): exact subtraction, floor division. For a positive divisor `Int`'s `/` rounds
toward minus infinity. -/
def currentStep (t start stepSec : Int) : Int := (t - start) / stepSec

/-- `WindowSteps(s, p, f)` (R162). -/
def windowSteps (s : Int) (p f : Nat) : List Int := (List.range (p + 1 + f)).map fun (i : Nat) => s - p + (i : Int)

/-- `InI64(x)` (R163). -/
def inI64 (x : Int) : Bool := decide (-2 ^ 63 ≤ x) && decide (x ≤ 2 ^ 63 - 1)

/-- The current step at this clock sample under the active configuration (R160). -/
def stepNow (s : State) : Int := currentStep (clockNow s).toInt s.act.startTime.toInt s.act.stepSeconds.toNat

/-- The window of `p` past and `f` future steps around `x` is representable (R163). -/
def windowInI64 (x : Int) (p f : Nat) : Bool := inI64 x && inI64 (x - p) && inI64 (x + f)

/-- The `TOTP` arm for a window of `p` past and `f` future steps (R166), which is `VERIFY`'s too (R177). -/
def windowArm (p f : Nat) (s : State) : State :=
  if windowInI64 (stepNow s) p f then
    { drawn s with
      now := clockNow s
      stepReg := BitVec.ofInt 64 (stepNow s)
      n := p + 1 + f
      idx := 0
      msg0 := BitVec.ofInt 64 (stepNow s - p)
      phase := .req }
  else raise .range (drawn s)

end Sys2Proof.Machine
end

