-- ==== Sys2Proof/Machine/Hotp.lean ====
section
/-! DEFINITION. The command `HOTP` (41_hotp.md). -/

namespace Sys2Proof.Machine

/-- The `HOTP` arm of the decode step (R150). -/
def hotpArm (s : State) : State := { s with n := 1, idx := 0, msg0 := s.counter, phase := .req }

/-- `HOTP`'s finalisation (R130, R151). -/
def hotpLast (s : State) : State := complete .none s

/-- `HOTP` (R150, R151). -/
def execHotp (s : State) : Host.Outcome State Fault Refusal := .next (hmacCommand false hotpArm hotpLast s)

end Sys2Proof.Machine
end

