-- ==== Sys2Proof/Machine/Totp.lean ====
section
/-! DEFINITION. The commands `STEP` and `TOTP` (42_totp.md). -/

namespace Sys2Proof.Machine

/-- The `STEP` arm of the decode step (R164). -/
def stepArm (s : State) : State :=
  if inI64 (stepNow s) then
    complete .none { drawn s with now := clockNow s, stepReg := BitVec.ofInt 64 (stepNow s) }
  else raise .range (drawn s)

/-- `STEP` (R164). -/
def execStep (s : State) : Host.Outcome State Fault Refusal := .next (atDecode stepArm s)

/-- `TOTP`'s finalisation (R130, R167). -/
def totpLast (s : State) : State := complete .none { s with wcount := BitVec.ofNat 8 s.n }

/-- `TOTP past, future` (R166, R167); the immediates are clamped at 0 (R161). -/
def execTotp (past future : Int) (s : State) : Host.Outcome State Fault Refusal :=
  .next (hmacCommand true (windowArm (clamp0 past) (clamp0 future)) totpLast s)

end Sys2Proof.Machine
end

