-- ==== Sys2Proof/Machine/Verify.lean ====
section
/-! DEFINITION. The command `VERIFY` (43_verify.md). -/

namespace Sys2Proof.Machine

/-- `Match(i)` (R175): the lengths are equal and so is every one of the `d` characters. -/
def matchAt (s : State) (i : Nat) : Bool :=
  (s.candLen.toNat == digitsOf s) &&
    (List.range (digitsOf s)).all fun k => s.mem.read (candBase + k) == s.mem.read (winEntry i + k)

/-- `Outcome(p, N)` (R176): the smallest matching position, less `p`; `none` is `Invalid`. -/
def outcomeOf (s : State) (p n : Nat) : Option Int := ((List.range n).find? (matchAt s)).map fun i => (i : Int) - p

/-- `VERIFY`'s arm of the decode step (R177): the window of the active configuration. -/
def verifyArm (s : State) : State := windowArm s.act.past.toNat s.act.future.toNat s

/-- `VERIFY`'s finalisation (R130, R178). -/
def verifyLast (s : State) : State :=
  complete .none { s with wcount := BitVec.ofNat 8 s.n, result := resultWord (outcomeOf s s.act.past.toNat s.n) }

/-- `VERIFY` (R177, R178). -/
def execVerify (s : State) : Host.Outcome State Fault Refusal := .next (hmacCommand true verifyArm verifyLast s)

end Sys2Proof.Machine
end

