-- ==== Sys2Proof/Syntax.lean ====
section
/-! DEFINITION. The six commands of spec/opcode_table.json (30_encoding.md R112), one constructor per row. -/

namespace Sys2Proof

/-- A command. `TOTP`'s two immediates are the integers of R119 and R123; whether they fit their signed 8-bit fields
is `WellFormed` (log 14). `CURRENT` is another name of `totp 0 0` (R122). -/
inductive Instr where
  /-- `INIT` (R113, R186) -/
  | init
  /-- `TRUNC` (R114, R145) -/
  | trunc
  /-- `HOTP` (R115, R150) -/
  | hotp
  /-- `STEP` (R116, R164) -/
  | step
  /-- `TOTP past, future` (R117, R166) -/
  | totp (past future : Int)
  /-- `VERIFY` (R118, R177) -/
  | verify
  deriving DecidableEq, Repr

/-- The pseudo-command `CURRENT`, written for `TOTP 0, 0` (R122, R168). -/
abbrev Instr.current : Instr := .totp 0 0

end Sys2Proof
end

