-- ==== Sys2Proof/Machine/Dispatch.lean ====
section
/-! DEFINITION. One sequencer step of the command in `IR` (30_encoding.md R126 to R130), command by command. -/

namespace Sys2Proof.Machine

/-- The sequencer's step of a command: its arm in DECODE, its request step in REQ, its wait step in WAIT. -/
def exec (i : Instr) (s : State) : Host.Outcome State Fault Refusal :=
  match i with
  | .init => Sys2Proof.Machine.execInit s
  | .trunc => Sys2Proof.Machine.execTrunc s
  | .hotp => Sys2Proof.Machine.execHotp s
  | .step => Sys2Proof.Machine.execStep s
  | .totp past future => Sys2Proof.Machine.execTotp past future s
  | .verify => Sys2Proof.Machine.execVerify s

end Sys2Proof.Machine
end

