-- ==== Sys2Proof/WellFormed.lean ====
section
/-! DEFINITION. Which terms of `Instr` are commands: the immediates lie in the range of their fields (30_encoding.md R119). -/

namespace Sys2Proof

/-- The range of a signed 8-bit immediate (R119): an integer in `[-128, 127]`. -/
abbrev Imm8 (x : Int) : Prop := -128 ≤ x ∧ x ≤ 127

/-- R119: only `TOTP` has immediates, and both must fit. -/
def wellFormed : Instr → Bool
  | .init => true
  | .trunc => true
  | .hotp => true
  | .step => true
  | .totp past future => decide (Imm8 past) && decide (Imm8 future)
  | .verify => true

/-- A term of `Instr` that is a command of OTPE. -/
abbrev WellFormed (i : Instr) : Prop := wellFormed i = true

end Sys2Proof
end

