-- ==== Sys2Proof/Decode.lean ====
section
/-! DEFINITION. `Kind` of 30_encoding.md R121, total on all 2^32 words, and the assembler of R123. -/

namespace Sys2Proof

/-- Why a word is ILLEGAL (R120): its OPCODE names no command, or a must-be-zero field is not zero. -/
inductive Illegal where
  /-- R120 (a): `w[7:0]` is 0x00 or lies in 0x07 to 0xFF. -/
  | opcode (op : BitVec 8)
  /-- R120 (b), (c): a must-be-zero field of a command's format is not zero. -/
  | mustBeZero (op : BitVec 8)
  deriving DecidableEq, Repr

/-- The `OPCODE` field (R111). -/
def opcodeField (w : Word) : BitVec 8 := w.extractLsb' 0 8

/-- Format N's `MBZ` field, `w[31:8]` (R111). -/
def mbzN (w : Word) : BitVec 24 := w.extractLsb' 8 24

/-- Format W's `MBZ` field, `w[15:8]` (R111). -/
def mbzW (w : Word) : BitVec 8 := w.extractLsb' 8 8

/-- `pastSteps = sext_8(w[23:16])` (R119). -/
def pastField (w : Word) : Int := (w.extractLsb' 16 8).toInt

/-- `futureSteps = sext_8(w[31:24])` (R119). -/
def futureField (w : Word) : Int := (w.extractLsb' 24 8).toInt

/-- A format N word of command `i`: legal when the must-be-zero field is zero (R120 (b)). -/
def decodeN (i : Instr) (w : Word) : Except Illegal Instr :=
  if mbzN w = 0#24 then .ok i else .error (.mustBeZero (opcodeField w))

/-- `Kind(w)` (R121); an illegal word is rejected by name. -/
def decode (w : Word) : Except Illegal Instr :=
  if opcodeField w = 0x01#8 then decodeN .init w
  else if opcodeField w = 0x02#8 then decodeN .trunc w
  else if opcodeField w = 0x03#8 then decodeN .hotp w
  else if opcodeField w = 0x04#8 then decodeN .step w
  else if opcodeField w = 0x05#8 then
    if mbzW w = 0#8 then .ok (.totp (pastField w) (futureField w)) else .error (.mustBeZero 0x05#8)
  else if opcodeField w = 0x06#8 then decodeN .verify w
  else .error (.opcode (opcodeField w))

/-- Assembly (R123): the opcode alone, and for `TOTP` `((future mod 256) << 24) | ((past mod 256) << 16) | 0x05`. -/
def encode : Instr → Word
  | .init => 0x00000001#32
  | .trunc => 0x00000002#32
  | .hotp => 0x00000003#32
  | .step => 0x00000004#32
  | .totp past future => BitVec.ofInt 8 future ++ BitVec.ofInt 8 past ++ 0x0005#16
  | .verify => 0x00000006#32

/-- The command the decoder reads from the table's numbering of bits: one 32-bit word, bit 0 its least significant bit
(R110), the bits above `nbits` zero. -/
def decodeTableWord (nbits w : Nat) : Option Instr :=
  match decode (BitVec.ofNat 32 (w % 2 ^ nbits)) with
  | .ok i => some i
  | .error _ => none

end Sys2Proof
end

