-- ==== Sys2Proof/Machine/Port.lean ====
section
/-! DEFINITION. The host port (20_memory.md R70 to R77): the register map of 10_state.md R20, reads and writes. -/

namespace Sys2Proof.Machine

/-- What a word index names (R20); a word of a byte buffer carries its byte address. -/
inductive Reg where
  | cmd | status | ctrl | result | id | cap
  | cfgAlg | cfgDigits | cfgStep | cfgStartLo | cfgStartHi | cfgPast | cfgFuture
  | actAlg | actDigits | actStep | actStartLo | actStartHi | actPast | actFuture
  | counterLo | counterHi | secretLen | candLen
  | nowLo | nowHi | stepLo | stepHi | value | wcount | dbc
  | cand (addr : Nat) | code (addr : Nat) | digest (addr : Nat) | secret (addr : Nat) | win (addr : Nat)
  | reserved
  deriving DecidableEq, Repr

/-- The single words of the register page (R20). -/
def regTable : List (Nat × Reg) :=
  [(0x000, .cmd), (0x001, .status), (0x002, .ctrl), (0x003, .result), (0x004, .id), (0x005, .cap),
   (0x008, .cfgAlg), (0x009, .cfgDigits), (0x00A, .cfgStep), (0x00C, .cfgStartLo), (0x00D, .cfgStartHi),
   (0x00E, .cfgPast), (0x00F, .cfgFuture),
   (0x010, .actAlg), (0x011, .actDigits), (0x012, .actStep), (0x014, .actStartLo), (0x015, .actStartHi),
   (0x016, .actPast), (0x017, .actFuture),
   (0x018, .counterLo), (0x019, .counterHi), (0x01A, .secretLen), (0x01B, .candLen),
   (0x020, .nowLo), (0x021, .nowHi), (0x022, .stepLo), (0x023, .stepHi), (0x024, .value), (0x025, .wcount), (0x029, .dbc)]

/-- The register map (R20): the buffers by range, the single words by the table, every other word reserved. -/
def regAt (w : BitVec 11) : Reg :=
  let k := w.toNat
  if 0x01C ≤ k ∧ k ≤ 0x01E then .cand (4 * k)
  else if 0x026 ≤ k ∧ k ≤ 0x028 then .code (4 * k)
  else if 0x030 ≤ k ∧ k ≤ 0x03F then .digest (4 * k)
  else if 0x040 ≤ k ∧ k ≤ 0x05F then .secret (4 * k)
  else if 0x400 ≤ k ∧ k ≤ 0x7FB then .win (4 * k)
  else (regTable.lookup k).getD .reserved

/-- The word a register reads as, where the read is specified (R72): `SECRET` and reserved words read 0. -/
def regWord (s : State) : Reg → Word
  | .cmd => s.ir
  | .status => s.status.word
  | .ctrl => ctrlWord s
  | .result => s.result
  | .id => Config.idValue
  | .cap => Config.capValue
  | .cfgAlg => s.cfg.alg
  | .cfgDigits => s.cfg.digits
  | .cfgStep => s.cfg.stepSeconds
  | .cfgStartLo => loWord s.cfg.startTime
  | .cfgStartHi => hiWord s.cfg.startTime
  | .cfgPast => s.cfg.past
  | .cfgFuture => s.cfg.future
  | .actAlg => algCode s.act.alg
  | .actDigits => s.act.digits.setWidth 32
  | .actStep => s.act.stepSeconds
  | .actStartLo => loWord s.act.startTime
  | .actStartHi => hiWord s.act.startTime
  | .actPast => s.act.past.setWidth 32
  | .actFuture => s.act.future.setWidth 32
  | .counterLo => loWord s.counter
  | .counterHi => hiWord s.counter
  | .secretLen => s.secretLen
  | .candLen => s.candLen
  | .nowLo => loWord s.now
  | .nowHi => hiWord s.now
  | .stepLo => loWord s.stepReg
  | .stepHi => hiWord s.stepReg
  | .value => s.value
  | .wcount => s.wcount.setWidth 32
  | .dbc => s.dbc.setWidth 32
  | .cand a => s.mem.readWord a
  | .code a => s.mem.readWord a
  | .digest a => s.mem.readWord a
  | .secret _ => 0#32
  | .win a => s.mem.readWord a
  | .reserved => 0#32

/-- The words whose read is unspecified while `BUSY = 1` (R75). -/
def isResult : Reg → Bool
  | .actAlg | .actDigits | .actStep | .actStartLo | .actStartHi | .actPast | .actFuture => true
  | .nowLo | .nowHi | .stepLo | .stepHi | .value | .wcount | .dbc => true
  | .code _ | .digest _ | .win _ => true
  | _ => false

/-- The words whose write is dropped while `BUSY = 1` (R77). -/
def isOperand : Reg → Bool
  | .cmd => true
  | .cfgAlg | .cfgDigits | .cfgStep | .cfgStartLo | .cfgStartHi | .cfgPast | .cfgFuture => true
  | .counterLo | .counterHi | .secretLen | .candLen => true
  | .cand _ | .digest _ | .secret _ => true
  | _ => false

/-- A read whose value the spec does not fix (R75). -/
def unspecified (s : State) (r : Reg) : Bool := s.status.busy && isResult r

/-- `read(widx)` (R72): it changes no state of OTPE; an unspecified read is a fresh free value (R75, log 4). -/
def hostRead (w : BitVec 11) (s : State) : State :=
  if unspecified s (regAt w) then { drawn s with readData := some (Config.busyRead s.draws) }
  else { s with readData := some (regWord s (regAt w)) }

/-- What a taken write stores (R73); a write to a read-only or reserved word is ignored. -/
def storeReg (v : Word) (s : State) : Reg → State
  | .cmd => accept v s
  | .cfgAlg => { s with cfg := { s.cfg with alg := v } }
  | .cfgDigits => { s with cfg := { s.cfg with digits := v } }
  | .cfgStep => { s with cfg := { s.cfg with stepSeconds := v } }
  | .cfgStartLo => { s with cfg := { s.cfg with startTime := setLo s.cfg.startTime v } }
  | .cfgStartHi => { s with cfg := { s.cfg with startTime := setHi s.cfg.startTime v } }
  | .cfgPast => { s with cfg := { s.cfg with past := v } }
  | .cfgFuture => { s with cfg := { s.cfg with future := v } }
  | .counterLo => { s with counter := setLo s.counter v }
  | .counterHi => { s with counter := setHi s.counter v }
  | .secretLen => { s with secretLen := v }
  | .candLen => { s with candLen := v }
  | .cand a => { s with mem := s.mem.writeWord a v }
  | .digest a => { s with mem := s.mem.writeWord a v }
  | .secret a => { s with mem := s.mem.writeWord a v }
  | .status => { s with status := s.status.writeOneToClear v }
  | .ctrl => if v.getLsbD 31 then resetAction s else { s with ie := v.getLsbD 0 }
  | _ => s

/-- A dropped write (R74, R77): nothing but `WDROP` changes. -/
def dropWrite (s : State) : State := { s with status := { s.status with wdrop := true } }

/-- `write(widx, v)` (R73). -/
def hostWrite (w : BitVec 11) (v : Word) (s : State) : State :=
  if s.status.busy && isOperand (regAt w) then dropWrite s else storeReg v s (regAt w)

end Sys2Proof.Machine
end

