-- ==== Sys2Proof/Machine/Fetch.lean ====
section
/-! DEFINITION. Which agent moves and which command the sequencer runs next (00_scope.md R15, 20_memory.md R81,
30_encoding.md R126 to R129). A pair holds the state, and the command `exec` is to run in it if the sequencer moves. -/

namespace Sys2Proof.Machine

/-- The command in `IR`, if the word is one (R26, R121). -/
def running (s : State) : Option Instr :=
  match decode s.ir with
  | .ok i => some i
  | .error _ => none

/-- The decode step's first check (R126): a command to run, or `E_ILLEGAL`. -/
def decodeTurn (s : State) : State × Option Instr :=
  match decode s.ir with
  | .ok i => (s, some i)
  | .error _ => (raise .illegal s, none)

/-- The sequencer's turn. It has an enabled step in DECODE and REQ, in WAIT when a record is presented, and none in IDLE
or while the reset pin is low (R56, R95, R230); with none the state stays (log 2). -/
def engineTurn (s : State) : State × Option Instr :=
  if s.rstN = true then
    match s.phase with
    | .idle => (s, none)
    | .decode => decodeTurn s
    | .req => (s, running s)
    | .wait => if s.rsp = none then (s, none) else (s, running s)
  else (s, none)

/-- A delivery (R92): the record answers the oldest request (by order alone). In WAIT it is the wait step's; elsewhere it
finds no enabled step and is discarded (R97; log 7). -/
def delivery (d : Digest) (s : State) : State × Option Instr :=
  let t := { s with owed := s.owed.tail }
  if s.rstN = true ∧ s.phase = .wait then engineTurn { t with rsp := some d } else (t, none)

/-- The unit that keeps its duty answers its oldest request (R93, R236); with none there is nothing to answer (log 5). -/
def answer (s : State) : State × Option Instr :=
  match s.owed with
  | [] => (s, none)
  | r :: _ => delivery (Config.hmac r.alg r.key r.msg) s

/-- The reset pin takes a level (R101, R230): low holds the reset state, the release is the reset step; a pin that is high
and stays high does nothing (log 8). -/
def pinReset (level : Bool) (s : State) : State :=
  if level = true ∧ s.rstN = true then s else { resetAction s with rstN := level }

/-- A host transaction is served only while the reset pin is high (R230); a read that is not served returns no word (log 9). -/
def served (s : State) (transaction : State → State) : State :=
  if s.rstN = true then transaction s else s

/-- One agent's atomic step (R15, R81). -/
def perform (e : Event) (s : State) : State × Option Instr :=
  match e with
  | .read w => (served { s with readData := none } (hostRead w), none)
  | .write w v => (served s (hostWrite w v), none)
  | .rstn level => (pinReset level s, none)
  | .clock t => ({ s with clockPin := some t }, none)
  | .deliver d => delivery d s
  | .answer => answer s
  | .drain => ({ s with owed := [] }, none)
  | .turn => engineTurn s

/-- The next agent's step, and the sequencer's own where none is listed (R131: an enabled sequencer step is eventually
taken; log 1, log 2). -/
def fetch (s : State) : State × Option Instr :=
  match s.inputs with
  | [] => engineTurn s
  | e :: es => perform e { s with inputs := es }

/-- `IR` and the sequencer made ready so that the next step is the decode step of a word: an acceptance (R125) with the
pin high and no other agent before it (log 10). -/
def placeCommand (w : Word) (s : State) : State := accept w { s with rstN := true, inputs := [] }

end Sys2Proof.Machine
end

