-- ==== Sys2Proof/Machine/Step.lean ====
section
/-! DEFINITION. One atomic step of OTPE and the agents around it (20_memory.md R81). -/

namespace Sys2Proof.Machine

/-- One step: the next agent's, and where it is the sequencer's step of a command, `exec` of that command. -/
def step (s : State) : Host.Outcome State Fault Refusal :=
  match fetch s with
  | (t, some i) => exec i t
  | (t, none) => .next t

/-- The command word put where the sequencer decodes it (R26, R85, R125; log 10). -/
def State.withFetchWord (s : State) (nbits w : Nat) : State := placeCommand (BitVec.ofNat 32 (w % 2 ^ nbits)) s

end Sys2Proof.Machine
end

