-- ==== Sys2Proof/Safety.lean ====
section
/-! DEFINITION. What a good state and a safe run of OTPE are, in the terms the statements use. -/

namespace Sys2Proof.Machine

/-- The byte addresses of the buffers and the window RAM (10_state.md R20). -/
abbrev Mapped (a : Nat) : Prop :=
  (0x070 ≤ a ∧ a ≤ 0x07B) ∨ (0x098 ≤ a ∧ a ≤ 0x0A3) ∨ (0x0C0 ≤ a ∧ a ≤ 0x17F) ∨ (0x1000 ≤ a ∧ a ≤ 0x1FEF)

/-- `RESULT` is the word of `Success(o)` (R176, with the bits of R23): `((o mod 256) << 8) | 3`. -/
structure IsSuccess (r : Word) (o : Int) : Prop where
  number : (r.toNat : Int) = o % 256 * 256 + 3
  /-- `VALID` -/
  validBit : r.getLsbD 0 = true
  /-- `MATCH` -/
  matchBit : r.getLsbD 1 = true
  reservedBits : ∀ i, (2 ≤ i ∧ i ≤ 7) ∨ 16 ≤ i → r.getLsbD i = false
  /-- `sext_8(RESULT[15:8])` is the offset -/
  offset : -127 ≤ o → o ≤ 127 → (r.extractLsb' 8 8).toInt = o

/-- The legal values of `RESULT` (R23): no outcome, `Invalid`, and `Success` with an offset in `[-127, 127]`. -/
abbrev LegalResult (r : Word) : Prop :=
  r = 0x00000000#32 ∨ r = 0x00000001#32 ∨ ∃ o : Int, -127 ≤ o ∧ o ≤ 127 ∧ IsSuccess r o

/-- The number of HMAC requests of a command (R57), for the commands that make any. -/
def requestCount (s : State) : Instr → Option Nat
  | .init => none
  | .trunc => none
  | .hotp => some 1
  | .step => none
  | .totp past future => some (clamp0 past + 1 + clamp0 future)
  | .verify => some (s.act.past.toNat + 1 + s.act.future.toNat)

/-- A command is running between its decode step and its completion: `IR` holds a command that uses the HMAC unit, `N` is
its number of requests, `IDX` is a position below `N`, and the secret is not too long (R57, R126, R131). -/
structure Running (s : State) : Prop where
  command : ∃ i, decode s.ir = .ok i ∧ requestCount s i = some s.n
  position : s.idx < s.n
  secret : s.secretLen.toNat ≤ 128

/-- The invariant of OTPE's reachable states. -/
structure Inv (s : State) : Prop where
  /-- the memory is in canonical form -/
  memWf : s.mem.wf = true
  /-- only bytes of the buffers and the window RAM are stored (R20, R88) -/
  memMapped : ∀ c ∈ s.mem, Mapped c.1
  /-- `BUSY = 1` exactly when `PHASE` is not IDLE (R21) -/
  busyIff : s.status.busy = true ↔ s.phase ≠ .idle
  /-- `ERR = 1` exactly when `ERRCODE` is not 0 (R21) -/
  errIff : s.status.err = true ↔ s.status.errcode ≠ .none
  /-- while a command runs there is no completion record and no outcome (R125) -/
  busyClear : s.status.busy = true → s.status.done = false ∧ s.status.errcode = .none ∧ s.result = 0#32
  /-- the legal values of `ACT_DIGITS` (R33) -/
  digits : 6 ≤ s.act.digits.toNat ∧ s.act.digits.toNat ≤ 10
  /-- the legal values of `ACT_STEP` (R33): 1 to 2^31 - 1 -/
  stepSeconds : 1 ≤ s.act.stepSeconds.toNat ∧ s.act.stepSeconds.toNat ≤ 2 ^ 31 - 1
  /-- the legal values of `RESULT` (R23) -/
  result : LegalResult s.result
  /-- `VALUE` is below 2^31 (R42) -/
  value : s.value.toNat < 2 ^ 31
  /-- `N` and `IDX` are integers 0 to 255 (R57) -/
  counts : s.n ≤ 255 ∧ s.idx ≤ 255
  /-- in REQ and WAIT a command that uses the HMAC unit runs (R57, R131) -/
  running : s.phase = .req ∨ s.phase = .wait → Running s
  /-- no record stays at the response port: it is taken in its step or discarded (R81, R97) -/
  rspTaken : s.rsp = none
  /-- while the reset pin is low OTPE is in its reset state (R230) -/
  heldReset : s.rstN = false → s = resetAction s

/-- The step answers a next state. -/
abbrev Answers (o : Host.Outcome State Fault Refusal) (t : State) : Prop := o = .next t

/-- `STATUS` after `Complete(code)` (60_exceptions.md R202); `WDROP` stays. -/
def endedStatus (code : ErrCode) (s : State) : Status :=
  { busy := false, done := true, err := decide (code ≠ .none), errcode := code, wdrop := s.status.wdrop }

/-- An error completion (60_exceptions.md R203): nothing but `STATUS` and `PHASE` changes. `drawn` says how many clock
samples it consumed, which the model counts (log 12). -/
def errorEnd (code : ErrCode) (samples : Nat) (s : State) : State :=
  { s with status := endedStatus code s, phase := .idle, draws := s.draws + samples }

/-- The address lies in the `len` bytes from `base`. -/
abbrev Within (base len a : Nat) : Prop := base ≤ a ∧ a < base + len

/-- Every byte outside the `len` bytes from `base` reads as before. -/
abbrev SameOutside (m m' : Memory) (base len : Nat) : Prop := ∀ a, ¬Within base len a → m'.read a = m.read a

/-- Byte `k` of the 12-byte code field of the value `v` with `d` digits (40_truncation.md R144). -/
def codeByte (v d k : Nat) : Byte := if k < d then BitVec.ofNat 8 (0x30 + v / 10 ^ (d - 1 - k) % 10) else 0#8

/-- The 12 bytes at `base` hold the code of `v` with `d` digits (10_state.md R40, R46). -/
abbrev HoldsCode (m : Memory) (base v d : Nat) : Prop := ∀ k, k < 12 → m.read (base + k) = codeByte v d k

/-- What the wait step stores of the used digest bytes `h` (30_encoding.md R129), read back from memory: `DIGEST` with its
zero fill, `DBC`, `VALUE`, `CODE`, for a window command the entry `WIN[IDX]`, and no other byte. -/
structure DigestTaken (windowed : Bool) (h : List Byte) (s t : State) : Prop where
  digest : ∀ k, k < 64 → t.mem.read (0x0C0 + k) = h.getD k 0#8
  dbc : t.dbc = dbcOf h
  value : t.value.toNat = (dbcOf h).toNat % 10 ^ s.act.digits.toNat
  code : HoldsCode t.mem 0x098 t.value.toNat s.act.digits.toNat
  chars : windowed = true → HoldsCode t.mem (0x1000 + 16 * s.idx) t.value.toNat s.act.digits.toNat
  winValue : windowed = true → t.mem.readWord (0x1000 + 16 * s.idx + 12) = t.value
  rest : ∀ a, ¬Within 0x0C0 64 a → ¬Within 0x098 12 a → ¬(windowed = true ∧ Within (0x1000 + 16 * s.idx) 16 a) →
    t.mem.read a = s.mem.read a

/-- The candidate equals the code at window position `i` (43_verify.md R175), read from memory. -/
abbrev CandidateAt (s : State) (i : Nat) : Prop :=
  s.candLen.toNat = s.act.digits.toNat ∧
    ∀ k, k < s.act.digits.toNat → s.mem.read (0x070 + k) = s.mem.read (0x1000 + 16 * i + k)

/-- `RESULT` says what the window of `n` entries with `p` past steps says of the candidate (43_verify.md R176): `Success` with
the smallest matching position less `p`, or `Invalid`. -/
structure ResultIs (r : Word) (s : State) (p n : Nat) : Prop where
  success : ∀ i, i < n → CandidateAt s i → (∀ j, j < i → ¬CandidateAt s j) → IsSuccess r ((i : Int) - p)
  invalid : (∀ i, i < n → ¬CandidateAt s i) → r = 0x00000001#32

/-- No reset comes next: the next listed event is neither a change of the reset pin nor a write of `CTRL.SRST`
(70_reset_and_hazards.md R230, R232). -/
def noResetNext (s : State) : Bool :=
  match s.inputs with
  | .rstn _ :: _ => false
  | .write w v :: _ => !(w == 0x002#11 && v.getLsbD 31)
  | _ => true

/-- A command's request and answer turns for `k` window positions, with an HMAC unit that keeps its duty (R93, R94). -/
def exchanges : Nat → List Event
  | 0 => []
  | k + 1 => .turn :: .answer :: exchanges k

/-- The digest bytes of window position `i` with an HMAC unit that keeps its duty (R93): the first `L` bytes of `Hmac` of the
secret and the counter `MSG0 + i`. -/
def dutyDigest (s : State) (msg0 : DWord) (i : Nat) : List Byte :=
  (Config.hmac s.act.alg (s.mem.readBytes 0x100 s.secretLen.toNat) (be8 (msg0 + BitVec.ofNat 64 i))).toList.take
    (digestLen s.act.alg)

/-- The truncated value of window position `i` with an HMAC unit that keeps its duty (40_truncation.md R143). -/
def dutyValue (s : State) (msg0 : DWord) (i : Nat) : Nat := (dbcOf (dutyDigest s msg0 i)).toNat % 10 ^ s.act.digits.toNat

/-- The candidate in `s` equals the code of window position `i` with an HMAC unit that keeps its duty (43_verify.md R175). -/
abbrev CandidateIsCode (s : State) (msg0 : DWord) (i : Nat) : Prop :=
  s.candLen.toNat = s.act.digits.toNat ∧
    ∀ k, k < s.act.digits.toNat → s.mem.read (0x070 + k) = codeByte (dutyValue s msg0 i) s.act.digits.toNat k

end Sys2Proof.Machine
end

