-- ==== Sys2Proof/Certificates/Slice0/Obligations.lean ====
section
/-! DEFINITION. The statements about OTPE, each formalising rules of spec/ or resting on them. In every statement the frame is
the equation `t = { s with … }`: a field that is not named there is unchanged. The fields `inputs` (log 1), `clockPin` (log 3),
`rsp` (log 5), `owed` (log 6), `readData` (log 9) and `draws` (log 12) are the model's own, not the spec's: what a statement says
of them is the model's choice. -/

open Sys2Proof Sys2Proof.Machine

/-! ## Encoding -/

/-- Decoding the assembled word of a command gives the command back, for every immediate (R121, R123). -/
def Obligations.DecodeOfEncodedCommand : Prop := ∀ i : Instr, WellFormed i → decode (encode i) = .ok i

/-- A legal word is the assembled word of the command it decodes to, and that command is well-formed (R119, R123). -/
def Obligations.EncodeOfDecodedWord : Prop := ∀ (w : Word) (i : Instr), decode w = .ok i → WellFormed i ∧ encode i = w

/-- R113, R114, R115, R116, R118: five commands are one word each, and that word is no other command. -/
def Obligations.SingleWordCommands : Prop :=
  ∀ w : Word,
    (decode w = .ok .init ↔ w = 0b00000000000000000000000000000001#32) ∧
    (decode w = .ok .trunc ↔ w = 0b00000000000000000000000000000010#32) ∧
    (decode w = .ok .hotp ↔ w = 0b00000000000000000000000000000011#32) ∧
    (decode w = .ok .step ↔ w = 0b00000000000000000000000000000100#32) ∧
    (decode w = .ok .verify ↔ w = 0b00000000000000000000000000000110#32)

/-- R117: the words of `TOTP past, future` are `ffffffff pppppppp 00000000 00000101` with the two's-complement bytes of the
immediates, and the rule's seven examples. -/
def Obligations.TotpWords : Prop :=
  (∀ (w : Word) (past future : Int), decode w = .ok (.totp past future) ↔
    ∃ f p : BitVec 8, w = f ++ p ++ 0b0000000000000101#16 ∧ past = p.toInt ∧ future = f.toInt) ∧
  encode (.totp 0 0) = 0x00000005#32 ∧ encode (.totp 1 1) = 0x01010005#32 ∧ encode (.totp 2 0) = 0x00020005#32 ∧
  encode (.totp 0 3) = 0x03000005#32 ∧ encode (.totp (-1) 2) = 0x02FF0005#32 ∧
  encode (.totp 127 127) = 0x7F7F0005#32 ∧ encode (.totp (-128) (-128)) = 0x80800005#32

/-- R120 (a), (b), (c): which words are illegal. -/
def Obligations.IllegalWordsRejected : Prop :=
  ∀ w : Word, (∃ e, decode w = .error e) ↔
    (w.toNat % 256 = 0 ∨ 0x07 ≤ w.toNat % 256) ∨
    ((w.toNat % 256 = 1 ∨ w.toNat % 256 = 2 ∨ w.toNat % 256 = 3 ∨ w.toNat % 256 = 4 ∨ w.toNat % 256 = 6) ∧ w.toNat / 256 ≠ 0) ∨
    (w.toNat % 256 = 5 ∧ w.toNat / 256 % 256 ≠ 0)

/-- Words written out from the spec's encodings and the examples of 95_test_vectors.md section 8. -/
def Obligations.WrittenWordsDecode : Prop :=
  decode 0x00000001#32 = .ok .init ∧ decode 0x00000002#32 = .ok .trunc ∧ decode 0x00000003#32 = .ok .hotp ∧
  decode 0x00000004#32 = .ok .step ∧ decode 0x00000006#32 = .ok .verify ∧
  decode 0x02FF0005#32 = .ok (.totp (-1) 2) ∧ decode 0x03000005#32 = .ok (.totp 0 3) ∧
  decode 0x00000000#32 = .error (.opcode 0x00#8) ∧ decode 0xFFFFFFFF#32 = .error (.opcode 0xFF#8) ∧
  decode 0x00000103#32 = .error (.mustBeZero 0x03#8) ∧ decode 0x01018005#32 = .error (.mustBeZero 0x05#8)

/-! ## One step -/

/-- A step runs the decoded command (R126 to R129): with the pin high and nothing listed, or a sequencer turn listed, the
sequencer's step in DECODE, in REQ, and in WAIT with a record presented is `exec` of the command in `IR`; so is a delivery
in WAIT, with that record presented and the oldest request answered, and the answer of a unit that keeps its duty. -/
def Obligations.StepRunsDecodedCommand : Prop :=
  ∀ (s : State) (i : Instr), s.rstN = true → decode s.ir = .ok i →
    (s.inputs = [] → s.phase = .decode ∨ s.phase = .req ∨ (s.phase = .wait ∧ s.rsp ≠ none) → step s = exec i s) ∧
    (∀ es, s.inputs = .turn :: es → s.phase = .decode ∨ s.phase = .req ∨ (s.phase = .wait ∧ s.rsp ≠ none) →
      step s = exec i { s with inputs := es }) ∧
    (∀ d es, s.inputs = .deliver d :: es → s.phase = .wait →
      step s = exec i { s with inputs := es, owed := s.owed.tail, rsp := some d }) ∧
    (∀ r rs es, s.inputs = .answer :: es → s.owed = r :: rs → s.phase = .wait →
      step s = exec i { s with inputs := es, owed := rs, rsp := some (Config.hmac r.alg r.key r.msg) })

/-- Nothing in OTPE is a fault or a refusal: every step of every state answers a next state (R220, R250). -/
def Obligations.EveryStepAnswers : Prop := ∀ s : State, ∃ t, step s = .next t

/-- With no enabled sequencer step the sequencer's turn leaves the state as it is: IDLE (R56), WAIT without a record (R95),
the reset pin low (R230). The stutter is the model's form of it (log 2). -/
def Obligations.NoEnabledStepKeepsState : Prop :=
  ∀ s : State, s.inputs = [] → s.phase = .idle ∨ (s.phase = .wait ∧ s.rsp = none) ∨ s.rstN = false → step s = .next s

/-- Only a delivery or a reset leaves WAIT (R95): whatever else the agents do, the command stays where it is. -/
def Obligations.OnlyDeliveryOrResetLeavesWait : Prop :=
  ∀ s t : State, s.phase = .wait → s.rsp = none → s.status.busy = true → noResetNext s = true →
    (∀ d es, s.inputs ≠ .deliver d :: es) → (∀ es, s.inputs ≠ .answer :: es) → step s = .next t →
    t.phase = .wait ∧ t.status.busy = true ∧ t.idx = s.idx ∧ t.n = s.n ∧ t.ir = s.ir ∧ t.mem = s.mem

/-! ## Acceptance, completion, errors -/

/-- R125: acceptance of every word, legal or not; the falling of `irq` included. -/
def Obligations.AcceptanceOfAnyWord : Prop :=
  ∀ (s : State) (w : Word) (es : List Event), s.rstN = true → s.phase = .idle → s.status.busy = false →
    s.inputs = .write 0x000#11 w :: es →
    ∃ t, step s = .next t ∧ irq t = false ∧
      t = { s with
        ir := w
        status := { busy := true, done := false, err := false, errcode := .none, wdrop := s.status.wdrop }
        result := 0x00000000#32
        phase := .decode
        inputs := es }

/-- How a command ends (R202): if a step other than a reset takes `BUSY` from 1 to 0, then `DONE` is 1, `ERR` says whether
`ERRCODE` is 0, `PHASE` is IDLE, `WDROP`, `CTRL`, `IR`, `N` and `MSG0` are kept, and `irq` is 1 if `CTRL.IE` is. -/
def Obligations.CommandEndsByCompletion : Prop :=
  ∀ s t : State, Inv s → noResetNext s = true → s.status.busy = true → step s = .next t → t.status.busy = false →
    t.status = endedStatus t.status.errcode s ∧ t.phase = .idle ∧ t.ie = s.ie ∧ t.ir = s.ir ∧ t.n = s.n ∧ t.msg0 = s.msg0 ∧
      irq t = s.ie

/-- An illegal word ends with `E_ILLEGAL` in its decode step, whatever the registers hold, and changes nothing but `STATUS`
and `PHASE` (R120, R126 step 1, R207). -/
def Obligations.IllegalWordEnds : Prop :=
  ∀ s : State, s.rstN = true → s.inputs = [] → s.phase = .decode →
    ((s.ir.toNat % 256 = 0 ∨ 0x07 ≤ s.ir.toNat % 256) ∨
      ((s.ir.toNat % 256 = 1 ∨ s.ir.toNat % 256 = 2 ∨ s.ir.toNat % 256 = 3 ∨ s.ir.toNat % 256 = 4 ∨ s.ir.toNat % 256 = 6) ∧
        s.ir.toNat / 256 ≠ 0) ∨
      (s.ir.toNat % 256 = 5 ∧ s.ir.toNat / 256 % 256 ≠ 0)) →
    step s = .next (errorEnd .illegal 0 s)

/-- `HOTP`, `TOTP` and `VERIFY` end with `E_SECRET` when `SECRET_LEN` is above 128, before any clock sample and whatever the
clock shows (R126 step 2, R207). -/
def Obligations.SecretTooLongEnds : Prop :=
  ∀ (s : State) (past future : Int), s.phase = .decode → 128 < s.secretLen.toNat →
    exec .hotp s = .next (errorEnd .secret 0 s) ∧
    exec (.totp past future) s = .next (errorEnd .secret 0 s) ∧
    exec .verify s = .next (errorEnd .secret 0 s)

/-- An error completion is precise (R203): if a command's decode step ends it with an error, nothing but `STATUS` and `PHASE`
changed, no request was issued, and at most one clock sample was taken. -/
def Obligations.ErrorCompletionIsPrecise : Prop :=
  ∀ (i : Instr) (s t : State), s.phase = .decode → exec i s = .next t → t.phase = .idle → t.status.errcode ≠ .none →
    t = errorEnd t.status.errcode 0 s ∨ (t.status.errcode = .range ∧ t = errorEnd .range 1 s)

/-- All errors are detected in the decode step (R204): a command that ends after its first request ends with `E_NONE`. -/
def Obligations.NoErrorAfterFirstRequest : Prop :=
  ∀ (i : Instr) (s t : State), s.phase = .req ∨ s.phase = .wait → exec i s = .next t → t.phase = .idle →
    t.status = endedStatus .none s

/-- No command writes `CFG_*`, `COUNTER`, `SECRET_LEN`, `CAND_LEN`, `IR`, `CTRL.IE`, `STATUS.WDROP`, `SECRET` or `CAND` (R61,
R36, R151), and a command changes no pin, no read data and nothing other agents are to do. `DIGEST`, the one operand register
that is a result too (R61), is not among them: `HOTP`, `TOTP` and `VERIFY` write it (R129). -/
def Obligations.CommandsKeepOperandsButDigest : Prop :=
  ∀ (i : Instr) (s t : State), exec i s = .next t →
    t.cfg = s.cfg ∧ t.counter = s.counter ∧ t.secretLen = s.secretLen ∧ t.candLen = s.candLen ∧ t.ir = s.ir ∧ t.ie = s.ie ∧
    t.status.wdrop = s.status.wdrop ∧
    (∀ a, (0x100 ≤ a ∧ a ≤ 0x17F) ∨ (0x070 ≤ a ∧ a ≤ 0x07B) → t.mem.read a = s.mem.read a) ∧
    t.rstN = s.rstN ∧ t.clockPin = s.clockPin ∧ t.readData = s.readData ∧ t.inputs = s.inputs

/-- `INIT`, `TRUNC`, `STEP` and `HOTP` do not touch the window RAM, `WCOUNT` or `RESULT` (R245 (d), R145, R151, R164, R186). -/
def Obligations.OtherCommandsKeepWindow : Prop :=
  ∀ (i : Instr) (s t : State), i = .init ∨ i = .trunc ∨ i = .step ∨ i = .hotp → exec i s = .next t →
    t.wcount = s.wcount ∧ t.result = s.result ∧ ∀ a, 0x1000 ≤ a → t.mem.read a = s.mem.read a

/-! ## INIT -/

/-- R185: `ConfigValid`, the tests of the rule on the full stored words. -/
def Obligations.ConfigValidTests : Prop :=
  ∀ c : Staged, ConfigValid c ↔
    (c.alg.toNat = 0 ∨ c.alg.toNat = 1 ∨ c.alg.toNat = 2) ∧ (6 ≤ c.digits.toNat ∧ c.digits.toNat ≤ 10) ∧
    1 ≤ c.stepSeconds.toInt ∧ (0 ≤ c.past.toInt ∧ c.past.toInt ≤ 127) ∧ (0 ≤ c.future.toInt ∧ c.future.toInt ≤ 127)

/-- `INIT` with a valid staged configuration makes it active, losing nothing, and completes; nothing else changes (R186, R187). -/
def Obligations.InitMakesStagedActive : Prop :=
  ∀ s : State, s.phase = .decode → ConfigValid s.cfg →
    ∃ t, exec .init s = .next t ∧
      t = { s with act := t.act, status := endedStatus .none s, phase := .idle } ∧
      (s.cfg.alg.toNat = if t.act.alg = .sha1 then 0 else if t.act.alg = .sha256 then 1 else 2) ∧
      t.act.digits.toNat = s.cfg.digits.toNat ∧ t.act.stepSeconds = s.cfg.stepSeconds ∧
      t.act.startTime = s.cfg.startTime ∧ (t.act.past.toNat : Int) = s.cfg.past.toInt ∧
      (t.act.future.toNat : Int) = s.cfg.future.toInt

/-- `INIT` with an invalid staged configuration ends with `E_CONFIG`, and no active register changes (R186, R187). -/
def Obligations.InitRefusesInvalid : Prop :=
  ∀ s : State, s.phase = .decode → ¬ConfigValid s.cfg → exec .init s = .next (errorEnd .config 0 s)

/-- The active configuration changes only in the decode step of a successful `INIT`, which makes the staged one active, and by
a reset, which makes it the defaults (R188). -/
def Obligations.ActiveChangesOnlyByInit : Prop :=
  ∀ s t : State, step s = .next t → t.act ≠ s.act →
    (s.rstN = true ∧ s.phase = .decode ∧ decode s.ir = .ok .init ∧ construct s.cfg = some t.act) ∨
    (noResetNext s = false ∧ t.act = Active.reset)

/-- No command but `INIT` reads the staged configuration (R188): under any other staged one it does the same. -/
def Obligations.StagedReadOnlyByInit : Prop :=
  ∀ (i : Instr) (s t : State) (c : Staged), i ≠ .init → exec i s = .next t →
    exec i { s with cfg := c } = .next { t with cfg := c }

/-! ## Truncation -/

/-- R142: `Dbc(H)` by its offset, its big-endian read and its mask; the four bytes lie in `H[0..18]`; and the
lengths a digest has in OTPE (R142, R7). -/
def Obligations.DbcOfDigest : Prop :=
  (∀ h : List Byte, 20 ≤ h.length → ∀ off : Nat, off = (h.getD (h.length - 1) 0#8).toNat % 16 →
    off + 3 ≤ 18 ∧
    (dbcOf h).toNat = ((h.getD off 0#8).toNat * 2 ^ 24 + (h.getD (off + 1) 0#8).toNat * 2 ^ 16 +
      (h.getD (off + 2) 0#8).toNat * 2 ^ 8 + (h.getD (off + 3) 0#8).toNat) % 2 ^ 31) ∧
  digestLen .sha1 = 20 ∧ digestLen .sha256 = 32 ∧ digestLen .sha512 = 64

/-- The bounds of the truncated value (R146): below `10^d` and below 2^31, equal to `Dbc` for ten digits, and then the first
character is `0`, `1` or `2`. -/
def Obligations.TruncatedValueBounds : Prop :=
  ∀ (h : List Byte) (d : Nat),
    truncateValue h d < 10 ^ d ∧ truncateValue h d < 2 ^ 31 ∧ truncateValue h 10 = (dbcOf h).toNat ∧
    (codeByte (truncateValue h 10) 10 0 = 0x30#8 ∨ codeByte (truncateValue h 10) 10 0 = 0x31#8 ∨
      codeByte (truncateValue h 10) 10 0 = 0x32#8)

/-- R144: `CodeField(V, d)` has 12 bytes, the `d` decimal digits of `V` most significant first and zero bytes above, and
reading its digits back gives `V`; with the rule's example. -/
def Obligations.CodeFieldIsDecimal : Prop :=
  (∀ v d : Nat, d ≤ 12 → v < 10 ^ d →
    (codeFieldOf v d).length = 12 ∧
    (∀ k, k < d → (codeFieldOf v d).getD k 0#8 = BitVec.ofNat 8 (0x30 + v / 10 ^ (d - 1 - k) % 10)) ∧
    (∀ k, d ≤ k → (codeFieldOf v d).getD k 0#8 = 0#8) ∧
    ((codeFieldOf v d).take d).foldl (fun acc b => acc * 10 + (b.toNat - 0x30)) 0 = v) ∧
  codeFieldOf 82 6 = [0x30#8, 0x30#8, 0x30#8, 0x30#8, 0x38#8, 0x32#8, 0#8, 0#8, 0#8, 0#8, 0#8, 0#8]

/-- `TRUNC` (R145): `DBC`, `VALUE` and `CODE` from `DIGEST[0..L-1]`, completion, and nothing else. -/
def Obligations.TruncResult : Prop :=
  ∀ s : State, s.phase = .decode →
    ∃ t, exec .trunc s = .next t ∧
      t = { s with dbc := t.dbc, value := t.value, mem := t.mem, status := endedStatus .none s, phase := .idle } ∧
      t.dbc = dbcOf (s.mem.readBytes 0x0C0 (if s.act.alg = .sha1 then 20 else if s.act.alg = .sha256 then 32 else 64)) ∧
      t.value.toNat = t.dbc.toNat % 10 ^ s.act.digits.toNat ∧ HoldsCode t.mem 0x098 t.value.toNat s.act.digits.toNat ∧
      SameOutside s.mem t.mem 0x098 12

/-- `TRUNC` depends on nothing but `DIGEST[0..L-1]`, `ACT_ALG` and `ACT_DIGITS` (R63, R145, R248): two states that agree on
them get the same `DBC`, `VALUE` and `CODE`. -/
def Obligations.TruncReadsOnlyItsOperands : Prop :=
  ∀ s s' t t' : State, s.phase = .decode → s'.phase = .decode → s'.act.alg = s.act.alg → s'.act.digits = s.act.digits →
    (∀ k, k < digestLen s.act.alg → s'.mem.read (0x0C0 + k) = s.mem.read (0x0C0 + k)) →
    exec .trunc s = .next t → exec .trunc s' = .next t' →
    t'.dbc = t.dbc ∧ t'.value = t.value ∧ ∀ k, k < 12 → t'.mem.read (0x098 + k) = t.mem.read (0x098 + k)

/-! ## Steps of time -/

/-- R160: `CurrentStep` is the largest integer `q` with `q * stepSec <= t - start`, the rule's examples, and what OTPE takes it
of, with the rule's bound on the difference. -/
def Obligations.CurrentStepIsFloor : Prop :=
  (∀ t start stepSec : Int, 1 ≤ stepSec →
    currentStep t start stepSec * stepSec ≤ t - start ∧ ∀ q : Int, q * stepSec ≤ t - start → q ≤ currentStep t start stepSec) ∧
  currentStep (-1) 0 30 = -1 ∧ currentStep 29 60 30 = -2 ∧
  ∀ s : State, stepNow s = currentStep (clockNow s).toInt s.act.startTime.toInt s.act.stepSeconds.toNat ∧
    -2 ^ 64 < (clockNow s).toInt - s.act.startTime.toInt ∧ (clockNow s).toInt - s.act.startTime.toInt < 2 ^ 64

/-- R162: the window's steps, ascending by 1, oldest first, the current step once, at position `p`; and they are the steps of
`TOTP`'s and `VERIFY`'s window: with `N` and `MSG0` of the decode step, `MSG0 + i` is the 64-bit pattern of the `i`-th step for
every position `i < N` (42_totp.md R166, 43_verify.md R177). -/
def Obligations.WindowStepsAscend : Prop :=
  (∀ (s : Int) (p f : Nat),
    (windowSteps s p f).length = p + 1 + f ∧ (∀ i, i < p + 1 + f → (windowSteps s p f)[i]? = some (s - p + i)) ∧
    (windowSteps s p f)[p]? = some s ∧ (windowSteps s p f).count s = 1 ∧ (windowSteps s p f)[p + f]? = some (s + f)) ∧
  (∀ (s : State) (q : Int), s.phase = .decode → s.secretLen.toNat ≤ 128 →
    q = currentStep (clockNow s).toInt s.act.startTime.toInt s.act.stepSeconds.toNat →
    (∀ (past future : Int) (p f : Nat), (p : Int) = max past 0 → (f : Int) = max future 0 →
      -2 ^ 63 ≤ q - p → q + f ≤ 2 ^ 63 - 1 →
      ∃ t, exec (.totp past future) s = .next t ∧ t.n = p + 1 + f ∧
        ∀ i, i < t.n → ∃ x, (windowSteps q p f)[i]? = some x ∧ t.msg0 + BitVec.ofNat 64 i = BitVec.ofInt 64 x) ∧
    (-2 ^ 63 ≤ q - s.act.past.toNat → q + s.act.future.toNat ≤ 2 ^ 63 - 1 →
      ∃ t, exec .verify s = .next t ∧ t.n = s.act.past.toNat + 1 + s.act.future.toNat ∧
        ∀ i, i < t.n → ∃ x, (windowSteps q s.act.past.toNat s.act.future.toNat)[i]? = some x ∧
          t.msg0 + BitVec.ofNat 64 i = BitVec.ofInt 64 x))

/-- R161: `Clamp0(x) = max(x, 0)`. -/
def Obligations.ClampIsMax : Prop := ∀ x : Int, (clamp0 x : Int) = max x 0

/-- R141: `BE8(c)` is eight bytes, most significant first, with the rule's examples. -/
def Obligations.BigEndianCounter : Prop :=
  (∀ c : DWord, (be8 c).length = 8 ∧
    ∀ j, j < 8 → ((be8 c).getD j 0#8).toNat = c.toNat / 2 ^ (8 * (7 - j)) % 256) ∧
  be8 1#64 = [0x00#8, 0x00#8, 0x00#8, 0x00#8, 0x00#8, 0x00#8, 0x00#8, 0x01#8] ∧
  be8 0x0123456789ABCDEF#64 = [0x01#8, 0x23#8, 0x45#8, 0x67#8, 0x89#8, 0xAB#8, 0xCD#8, 0xEF#8] ∧
  be8 (BitVec.ofInt 64 (-1)) = List.replicate 8 0xFF#8

/-- `STEP` (R164): one clock sample, `NOW` and `STEP`, completion, and nothing else. The sample, `STEP`'s and every other
command's, is the value the clock port shows (R98), and the port shows what the platform last drove; where no input has driven
it, it is the free value of the model's draw counter (R99, log 3, log 12). -/
def Obligations.StepResult : Prop :=
  (∀ s : State, s.phase = .decode → ∀ q : Int,
    q = currentStep (clockNow s).toInt s.act.startTime.toInt s.act.stepSeconds.toNat → -2 ^ 63 ≤ q → q ≤ 2 ^ 63 - 1 →
    exec .step s = .next { s with
      now := clockNow s, stepReg := BitVec.ofInt 64 q, status := endedStatus .none s, phase := .idle, draws := s.draws + 1 }) ∧
  (∀ (s : State) (v : DWord), s.clockPin = some v → clockNow s = v ∧
    ∀ q : Int, s.phase = .decode → q = currentStep v.toInt s.act.startTime.toInt s.act.stepSeconds.toNat →
      -2 ^ 63 ≤ q → q ≤ 2 ^ 63 - 1 → exec .step s = .next { s with
        now := v, stepReg := BitVec.ofInt 64 q, status := endedStatus .none s, phase := .idle, draws := s.draws + 1 }) ∧
  (∀ s : State, s.clockPin = none → clockNow s = Config.clockSample s.draws) ∧
  ∀ (s : State) (v : DWord) (es : List Event), s.inputs = .clock v :: es →
    step s = .next { s with inputs := es, clockPin := some v }

/-- `STEP` ends with `E_RANGE`, writing nothing, when the step is outside int64 (R163, R164). -/
def Obligations.StepOutOfRange : Prop :=
  ∀ s : State, s.phase = .decode → ∀ q : Int,
    q = currentStep (clockNow s).toInt s.act.startTime.toInt s.act.stepSeconds.toNat → q < -2 ^ 63 ∨ 2 ^ 63 - 1 < q →
    exec .step s = .next (errorEnd .range 1 s)

/-- `TOTP` and `VERIFY` end with `E_RANGE`, writing no register and issuing no request, when the step or an end of the window
is outside int64 (R163, R166, R177). -/
def Obligations.WindowOutOfRange : Prop :=
  ∀ (s : State) (q : Int), s.phase = .decode → s.secretLen.toNat ≤ 128 →
    q = currentStep (clockNow s).toInt s.act.startTime.toInt s.act.stepSeconds.toNat →
    (∀ past future : Int, q - max past 0 < -2 ^ 63 ∨ 2 ^ 63 - 1 < q + max future 0 →
      exec (.totp past future) s = .next (errorEnd .range 1 s)) ∧
    (q - s.act.past.toNat < -2 ^ 63 ∨ 2 ^ 63 - 1 < q + s.act.future.toNat → exec .verify s = .next (errorEnd .range 1 s))

/-! ## The decode step of the commands that use the HMAC unit -/

/-- `HOTP`'s decode step (R150). -/
def Obligations.HotpStarts : Prop :=
  ∀ s : State, s.phase = .decode → s.secretLen.toNat ≤ 128 →
    exec .hotp s = .next { s with n := 1, idx := 0, msg0 := s.counter, phase := .req }

/-- `TOTP`'s decode step (R166): the immediates clamped at 0, one clock sample, `N`, `IDX`, `MSG0`. -/
def Obligations.TotpStarts : Prop :=
  ∀ (s : State) (past future q : Int), s.phase = .decode → s.secretLen.toNat ≤ 128 →
    q = currentStep (clockNow s).toInt s.act.startTime.toInt s.act.stepSeconds.toNat →
    -2 ^ 63 ≤ q - max past 0 → q + max future 0 ≤ 2 ^ 63 - 1 →
    ∃ t, exec (.totp past future) s = .next t ∧ (t.n : Int) = max past 0 + 1 + max future 0 ∧
      t = { s with
        now := clockNow s, stepReg := BitVec.ofInt 64 q, n := t.n, idx := 0, msg0 := BitVec.ofInt 64 (q - max past 0)
        phase := .req, draws := s.draws + 1 }

/-- `VERIFY`'s decode step (R177): the configured window, one clock sample, `N`, `IDX`, `MSG0`. -/
def Obligations.VerifyStarts : Prop :=
  ∀ (s : State) (q : Int), s.phase = .decode → s.secretLen.toNat ≤ 128 →
    q = currentStep (clockNow s).toInt s.act.startTime.toInt s.act.stepSeconds.toNat →
    -2 ^ 63 ≤ q - s.act.past.toNat → q + s.act.future.toNat ≤ 2 ^ 63 - 1 →
    exec .verify s = .next { s with
      now := clockNow s, stepReg := BitVec.ofInt 64 q, n := s.act.past.toNat + 1 + s.act.future.toNat, idx := 0
      msg0 := BitVec.ofInt 64 (q - s.act.past.toNat), phase := .req, draws := s.draws + 1 }

/-! ## The request and wait steps -/

/-- The request step (R128, R91) of `HOTP`, `TOTP` and `VERIFY`: one request, of the active algorithm, the secret's bytes in
buffer order and the counter of position `IDX`; the sequencer waits, and nothing else changes. -/
def Obligations.RequestIsIssued : Prop :=
  ∀ (s : State) (i : Instr), i = .hotp ∨ (∃ past future, i = .totp past future) ∨ i = .verify → s.phase = .req →
    ∃ r : HmacReq, exec i s = .next { s with owed := s.owed ++ [r], phase := .wait } ∧ r.alg = s.act.alg ∧
      r.key.length = s.secretLen.toNat ∧ (∀ j, j < s.secretLen.toNat → r.key.getD j 0#8 = s.mem.read (0x100 + j)) ∧
      r.msg = be8 (BitVec.ofNat 64 ((s.msg0.toNat + s.idx) % 2 ^ 64))

/-- The wait step before the last position (R129): what is stored, and the next request is due. -/
def Obligations.NextPositionIsDue : Prop :=
  ∀ (s : State) (d : Digest) (i : Instr), (∃ past future, i = .totp past future) ∨ i = .verify →
    s.phase = .wait → s.rsp = some d → s.idx + 1 < s.n →
    ∃ t, exec i s = .next t ∧ DigestTaken true (d.toList.take (digestLen s.act.alg)) s t ∧
      t = { s with mem := t.mem, dbc := t.dbc, value := t.value, idx := s.idx + 1, phase := .req, rsp := none }

/-- `HOTP`'s last wait step (R129, R130, R151): `DIGEST`, `DBC`, `VALUE`, `CODE`, completion, and nothing else. -/
def Obligations.HotpFinishes : Prop :=
  ∀ (s : State) (d : Digest), s.phase = .wait → s.rsp = some d → s.n ≤ s.idx + 1 →
    ∃ t, exec .hotp s = .next t ∧ DigestTaken false (d.toList.take (digestLen s.act.alg)) s t ∧
      t = { s with
        mem := t.mem, dbc := t.dbc, value := t.value, idx := s.idx + 1, rsp := none
        status := endedStatus .none s, phase := .idle }

/-- `TOTP`'s last wait step (R129, R130, R167): the last entry, `WCOUNT`, completion, and nothing else. -/
def Obligations.TotpFinishes : Prop :=
  ∀ (s : State) (d : Digest) (past future : Int), s.phase = .wait → s.rsp = some d → s.n ≤ s.idx + 1 → s.n ≤ 255 →
    ∃ t, exec (.totp past future) s = .next t ∧ DigestTaken true (d.toList.take (digestLen s.act.alg)) s t ∧
      t.wcount.toNat = s.n ∧
      t = { s with
        mem := t.mem, dbc := t.dbc, value := t.value, wcount := t.wcount, idx := s.idx + 1, rsp := none
        status := endedStatus .none s, phase := .idle }

/-- `VERIFY`'s last wait step (R130, R176, R178, R179): the last entry, `WCOUNT`, and `RESULT` by the smallest matching
position of the window just written, completion, and nothing else. -/
def Obligations.VerifyFinishes : Prop :=
  ∀ (s : State) (d : Digest), s.phase = .wait → s.rsp = some d → s.n ≤ s.idx + 1 → s.n ≤ 255 →
    ∃ t, exec .verify s = .next t ∧ DigestTaken true (d.toList.take (digestLen s.act.alg)) s t ∧
      t.wcount.toNat = s.n ∧ ResultIs t.result t s.act.past.toNat s.n ∧
      t = { s with
        mem := t.mem, dbc := t.dbc, value := t.value, wcount := t.wcount, result := t.result, idx := s.idx + 1, rsp := none
        status := endedStatus .none s, phase := .idle }

/-- `VERIFY` does not look at the candidate but for its outcome (R180, R177): with any other candidate each of its steps does
the same but for `RESULT`, the requests and the number of steps among it. -/
def Obligations.VerifyStepsIgnoreCandidate : Prop :=
  ∀ (s t : State) (len : Word) (m : Memory), (∀ a, ¬Within 0x070 12 a → m.read a = s.mem.read a) → exec .verify s = .next t →
    ∃ t', exec .verify { s with candLen := len, mem := m } = .next t' ∧
      t' = { t with candLen := len, mem := t'.mem, result := t'.result } ∧
      (∀ a, ¬Within 0x070 12 a → t'.mem.read a = t.mem.read a)

/-! ## Whole commands, with an HMAC unit that keeps its duty and nothing else interleaved -/

/-- `HOTP` from its decode step to its completion (R150, R151, R154), for every counter: three steps, and the code of
`Hmac(ACT_ALG, secret, BE8(COUNTER))`. -/
def Obligations.HotpCommandCode : Prop :=
  ∀ (s : State) (es : List Event), s.rstN = true → s.phase = .decode → decode s.ir = .ok .hotp → s.secretLen.toNat ≤ 128 →
    s.owed = [] → s.inputs = .turn :: exchanges 1 ++ es →
    ∃ t, Sys2Proof.core.run 3 s = .next t ∧ DigestTaken false (dutyDigest s s.counter 0) s t ∧
      t = { s with
        n := 1, idx := 1, msg0 := s.counter, mem := t.mem, dbc := t.dbc, value := t.value, rsp := none
        status := endedStatus .none s, phase := .idle, inputs := es }

/-- `TOTP past, future` from its decode step to its completion (R166, R167, R169, R171): `1 + 2 N` steps; every window position
`i` holds the code of `Hmac(ACT_ALG, secret, BE8(step - p + i))`, one clock sample for all of them, and the newest position's
digest and code stay in the registers. -/
def Obligations.TotpCommandWindow : Prop :=
  ∀ (s : State) (es : List Event) (past future q : Int) (n : Nat), s.rstN = true → s.phase = .decode →
    decode s.ir = .ok (.totp past future) → s.secretLen.toNat ≤ 128 → s.owed = [] →
    q = currentStep (clockNow s).toInt s.act.startTime.toInt s.act.stepSeconds.toNat →
    -2 ^ 63 ≤ q - max past 0 → q + max future 0 ≤ 2 ^ 63 - 1 → (n : Int) = max past 0 + 1 + max future 0 →
    s.inputs = .turn :: exchanges n ++ es →
    ∃ t, Sys2Proof.core.run (1 + 2 * n) s = .next t ∧ t.wcount.toNat = n ∧
      t = { s with
        now := clockNow s, stepReg := BitVec.ofInt 64 q, n := n, idx := n, msg0 := BitVec.ofInt 64 (q - max past 0)
        mem := t.mem, dbc := t.dbc, value := t.value, wcount := t.wcount, rsp := none
        status := endedStatus .none s, phase := .idle, draws := s.draws + 1, inputs := es } ∧
      (∀ i, i < n →
        HoldsCode t.mem (0x1000 + 16 * i) (dutyValue s t.msg0 i) s.act.digits.toNat ∧
        (t.mem.readWord (0x1000 + 16 * i + 12)).toNat = dutyValue s t.msg0 i) ∧
      t.dbc = dbcOf (dutyDigest s t.msg0 (n - 1)) ∧ t.value.toNat = dutyValue s t.msg0 (n - 1) ∧
      HoldsCode t.mem 0x098 t.value.toNat s.act.digits.toNat ∧
      (∀ k, k < 64 → t.mem.read (0x0C0 + k) = (dutyDigest s t.msg0 (n - 1)).getD k 0#8) ∧
      (∀ a, ¬Within 0x0C0 64 a → ¬Within 0x098 12 a → ¬Within 0x1000 (16 * n) a → t.mem.read a = s.mem.read a)

/-- `VERIFY` from its decode step to its completion (R176 to R180, R183): always `1 + 2 N` steps for the configured window, and
`RESULT` says `Success(i - ACT_PAST)` for the smallest position `i` whose code equals the candidate, and `Invalid` if there is
none; it depends on no earlier command. The bound on the digits is the invariant's (R33). -/
def Obligations.VerifyCommandOutcome : Prop :=
  ∀ (s : State) (es : List Event) (q : Int) (n : Nat), s.rstN = true → s.phase = .decode → decode s.ir = .ok .verify →
    s.secretLen.toNat ≤ 128 → s.act.digits.toNat ≤ 10 → s.owed = [] →
    q = currentStep (clockNow s).toInt s.act.startTime.toInt s.act.stepSeconds.toNat →
    -2 ^ 63 ≤ q - s.act.past.toNat → q + s.act.future.toNat ≤ 2 ^ 63 - 1 →
    n = s.act.past.toNat + 1 + s.act.future.toNat → s.inputs = .turn :: exchanges n ++ es →
    ∃ t, Sys2Proof.core.run (1 + 2 * n) s = .next t ∧ t.wcount.toNat = n ∧
      t = { s with
        now := clockNow s, stepReg := BitVec.ofInt 64 q, n := n, idx := n, msg0 := BitVec.ofInt 64 (q - s.act.past.toNat)
        mem := t.mem, dbc := t.dbc, value := t.value, wcount := t.wcount, result := t.result, rsp := none
        status := endedStatus .none s, phase := .idle, draws := s.draws + 1, inputs := es } ∧
      (∀ i, i < n → CandidateIsCode s t.msg0 i → (∀ j, j < i → ¬CandidateIsCode s t.msg0 j) →
        IsSuccess t.result ((i : Int) - s.act.past.toNat)) ∧
      ((∀ i, i < n → ¬CandidateIsCode s t.msg0 i) → t.result = 0x00000001#32) ∧
      (∀ i, i < n → HoldsCode t.mem (0x1000 + 16 * i) (dutyValue s t.msg0 i) s.act.digits.toNat)

/-! ## The host port -/

/-- R78: the byte lanes, read and written, with the rule's example. -/
def Obligations.ByteLanes : Prop :=
  (∀ (m : Memory) (base j : Nat),
    m.read (base + j) = (m.readWord (base + 4 * (j / 4))).extractLsb' (8 * (j % 4)) 8) ∧
  (∀ (m : Memory) (a : Nat) (v : Word),
    (m.writeWord a v).readWord a = v ∧ (∀ j, j < 4 → (m.writeWord a v).read (a + j) = v.extractLsb' (8 * j) 8) ∧
    SameOutside m (m.writeWord a v) a 4) ∧
  Memory.readBytes (Memory.writeWord [] 0x100 0x34333231#32) 0x100 4 = [0x31#8, 0x32#8, 0x33#8, 0x34#8]

/-- Reads by region (R72, with the map of R20 by byte address): what a served read returns, that it changes nothing but the
returned word, and that a result word read while busy is a free value, fresh at each read (the model's draw, log 4). -/
def Obligations.ReadByRegion : Prop :=
  ∀ (s : State) (w : BitVec 11) (es : List Event) (a : Nat), s.rstN = true → s.inputs = .read w :: es → a = 4 * w.toNat →
    ∃ t v, step s = .next t ∧ t = { s with inputs := es, readData := some v, draws := t.draws } ∧
      (if (0x040 ≤ a ∧ a ≤ 0x048) ∨ (0x050 ≤ a ∧ a ≤ 0x05C) ∨ (0x080 ≤ a ∧ a ≤ 0x0A4) ∨ (0x0C0 ≤ a ∧ a ≤ 0x0FC) ∨
          (0x1000 ≤ a ∧ a ≤ 0x1FEC) then
        if s.status.busy = true then v = Config.busyRead s.draws ∧ t.draws = s.draws + 1
        else t.draws = s.draws ∧ v =
          if a = 0x040 then (if s.act.alg = .sha1 then 0#32 else if s.act.alg = .sha256 then 1#32 else 2#32)
          else if a = 0x044 then s.act.digits.setWidth 32
          else if a = 0x048 then s.act.stepSeconds
          else if a = 0x050 then s.act.startTime.setWidth 32
          else if a = 0x054 then (s.act.startTime >>> 32).setWidth 32
          else if a = 0x058 then s.act.past.setWidth 32
          else if a = 0x05C then s.act.future.setWidth 32
          else if a = 0x080 then s.now.setWidth 32
          else if a = 0x084 then (s.now >>> 32).setWidth 32
          else if a = 0x088 then s.stepReg.setWidth 32
          else if a = 0x08C then (s.stepReg >>> 32).setWidth 32
          else if a = 0x090 then s.value
          else if a = 0x094 then s.wcount.setWidth 32
          else if a = 0x0A4 then s.dbc.setWidth 32
          else s.mem.readWord a
      else t.draws = s.draws ∧ v =
        if a = 0x000 then s.ir
        else if a = 0x004 then s.status.word
        else if a = 0x008 then (BitVec.ofBool s.ie).setWidth 32
        else if a = 0x00C then s.result
        else if a = 0x010 then 0x31544D01#32
        else if a = 0x014 then 0x00FF7F80#32
        else if a = 0x020 then s.cfg.alg
        else if a = 0x024 then s.cfg.digits
        else if a = 0x028 then s.cfg.stepSeconds
        else if a = 0x030 then s.cfg.startTime.setWidth 32
        else if a = 0x034 then (s.cfg.startTime >>> 32).setWidth 32
        else if a = 0x038 then s.cfg.past
        else if a = 0x03C then s.cfg.future
        else if a = 0x060 then s.counter.setWidth 32
        else if a = 0x064 then (s.counter >>> 32).setWidth 32
        else if a = 0x068 then s.secretLen
        else if a = 0x06C then s.candLen
        else if 0x070 ≤ a ∧ a ≤ 0x078 then s.mem.readWord a
        else 0x00000000#32)

/-- The read word of `STATUS` (R21): every bit of it, with the numbers of the error codes (R200). -/
def Obligations.StatusBits : Prop :=
  ∀ t : Status, t.word.getLsbD 0 = t.busy ∧ t.word.getLsbD 1 = t.done ∧ t.word.getLsbD 2 = t.err ∧
    (t.word.extractLsb' 4 4).toNat =
      (if t.errcode = .none then 0 else if t.errcode = .illegal then 1 else if t.errcode = .config then 2
       else if t.errcode = .secret then 3 else 4) ∧ t.word.getLsbD 8 = t.wdrop ∧
    ∀ i, i = 3 ∨ 9 ≤ i → t.word.getLsbD i = false

/-- Writes by region (R73, R74, R77, with the map of R20 by byte address): an operand, the staged configuration, the digest,
the secret and `CMD` are taken when idle and dropped with `WDROP` when busy; `STATUS` and `CTRL` are taken at any time; every
other write changes nothing. -/
def Obligations.WriteByRegion : Prop :=
  ∀ (s : State) (w : BitVec 11) (v : Word) (es : List Event) (a : Nat), s.rstN = true → s.inputs = .write w v :: es →
    a = 4 * w.toNat →
    step s = .next
      (if a = 0x000 ∨ (0x020 ≤ a ∧ a ≤ 0x028) ∨ (0x030 ≤ a ∧ a ≤ 0x03C) ∨ (0x060 ≤ a ∧ a ≤ 0x078) ∨ (0x0C0 ≤ a ∧ a ≤ 0x17C) then
        if s.status.busy = true then { s with inputs := es, status := { s.status with wdrop := true } }
        else if a = 0x000 then
          { s with
            inputs := es, ir := v, result := 0#32, phase := .decode
            status := { busy := true, done := false, err := false, errcode := .none, wdrop := s.status.wdrop } }
        else if a = 0x020 then { s with inputs := es, cfg := { s.cfg with alg := v } }
        else if a = 0x024 then { s with inputs := es, cfg := { s.cfg with digits := v } }
        else if a = 0x028 then { s with inputs := es, cfg := { s.cfg with stepSeconds := v } }
        else if a = 0x030 then
          { s with inputs := es, cfg := { s.cfg with startTime := (s.cfg.startTime >>> 32).setWidth 32 ++ v } }
        else if a = 0x034 then { s with inputs := es, cfg := { s.cfg with startTime := v ++ s.cfg.startTime.setWidth 32 } }
        else if a = 0x038 then { s with inputs := es, cfg := { s.cfg with past := v } }
        else if a = 0x03C then { s with inputs := es, cfg := { s.cfg with future := v } }
        else if a = 0x060 then { s with inputs := es, counter := (s.counter >>> 32).setWidth 32 ++ v }
        else if a = 0x064 then { s with inputs := es, counter := v ++ s.counter.setWidth 32 }
        else if a = 0x068 then { s with inputs := es, secretLen := v }
        else if a = 0x06C then { s with inputs := es, candLen := v }
        else { s with inputs := es, mem := s.mem.writeWord a v }
      else if a = 0x004 then
        { s with
          inputs := es
          status := { s.status with
            done := s.status.done && !v.getLsbD 1, wdrop := s.status.wdrop && !v.getLsbD 8 } }
      else if a = 0x008 then
        if v.getLsbD 31 = true then
          { State.reset with
            inputs := es, rstN := true, clockPin := s.clockPin, owed := s.owed, readData := s.readData, draws := s.draws }
        else { s with inputs := es, ie := v.getLsbD 0 }
      else { s with inputs := es })

/-- Every register a command reads is constant while it runs (R77, with the table of R61): whatever any agent does while
`BUSY = 1`, but for a reset, `IR`, `CFG_*`, `COUNTER`, the lengths, `SECRET` and `CAND` keep their values, so do `ACT_*` but in
the decode step of `INIT`, the one command that does not read them, and so does `DIGEST` with `TRUNC`, the one command that
reads it, in `IR`, and with any command but in the wait step. -/
def Obligations.OperandsFrozenWhileBusy : Prop :=
  ∀ s t : State, s.status.busy = true → noResetNext s = true → step s = .next t →
    t.ir = s.ir ∧ t.cfg = s.cfg ∧ t.counter = s.counter ∧ t.secretLen = s.secretLen ∧ t.candLen = s.candLen ∧
    (∀ a, (0x100 ≤ a ∧ a ≤ 0x17F) ∨ (0x070 ≤ a ∧ a ≤ 0x07B) → t.mem.read a = s.mem.read a) ∧
    (¬(s.phase = .decode ∧ decode s.ir = .ok .init) → t.act = s.act) ∧
    (decode s.ir = .ok .trunc ∨ s.phase ≠ .wait → ∀ a, 0x0C0 ≤ a ∧ a ≤ 0x0FF → t.mem.read a = s.mem.read a)

/-- The secret cannot be read at the port (R36): what any read returns is the same for any other bytes of `SECRET`. -/
def Obligations.SecretIsNotReadable : Prop :=
  ∀ (s : State) (m : Memory) (w : BitVec 11), (∀ a, ¬(0x100 ≤ a ∧ a ≤ 0x17F) → m.read a = s.mem.read a) →
    (hostRead w { s with mem := m }).readData = (hostRead w s).readData

/-- `irq` is `CTRL.IE and STATUS.DONE` at all times (R210), as the two words read at the port say. -/
def Obligations.IrqIsDoneAndEnabled : Prop :=
  ∀ s : State, irq s = ((regWord s .ctrl).getLsbD 0 && (regWord s .status).getLsbD 1)

/-- A record delivered in IDLE or DECODE is discarded (R97): OTPE does not change. That the unit no longer owes the request it
answered is the model's own book-keeping (log 6). -/
def Obligations.LateDeliveryDiscarded : Prop :=
  ∀ (s : State) (d : Digest) (es : List Event), s.phase = .idle ∨ s.phase = .decode → s.inputs = .deliver d :: es →
    step s = .next { s with inputs := es, owed := s.owed.tail }

/-! ## Reset -/

/-- R62: every item of state after reset, the constants, `irq` and the request port included. -/
def Obligations.ResetValues : Prop :=
  State.reset.phase = .idle ∧ State.reset.ir = 0#32 ∧ State.reset.idx = 0 ∧ State.reset.n = 0 ∧ State.reset.msg0 = 0#64 ∧
  State.reset.status.word = 0x00000000#32 ∧ regWord State.reset .ctrl = 0x00000000#32 ∧ State.reset.result = 0x00000000#32 ∧
  regWord State.reset .id = 0x31544D01#32 ∧ regWord State.reset .cap = 0x00FF7F80#32 ∧
  State.reset.cfg = { alg := 0#32, digits := 6#32, stepSeconds := 30#32, startTime := 0#64, past := 0#32, future := 0#32 } ∧
  State.reset.act = { alg := .sha1, digits := 6#4, stepSeconds := 30#32, startTime := 0#64, past := 0#7, future := 0#7 } ∧
  State.reset.counter = 0#64 ∧ State.reset.secretLen = 0#32 ∧ State.reset.candLen = 0#32 ∧
  (∀ a, State.reset.mem.read a = 0x00#8) ∧
  State.reset.now = 0#64 ∧ State.reset.stepReg = 0#64 ∧ State.reset.value = 0#32 ∧ State.reset.dbc = 0#31 ∧
  State.reset.wcount = 0#8 ∧ irq State.reset = false

/-- Soft reset (R231, R232): a write of `CTRL` with bit 31 set gives every item of OTPE's state its value of R62, in any phase,
whatever bit 0 of the word is; the pins, the HMAC unit and the other agents stay as they are (log 12). -/
def Obligations.SoftResetInAnyPhase : Prop :=
  ∀ (s : State) (v : Word) (es : List Event), s.rstN = true → s.inputs = .write 0x002#11 v :: es → v.getLsbD 31 = true →
    step s = .next
      { phase := .idle, ir := 0#32, idx := 0, n := 0, msg0 := 0#64
        status := { busy := false, done := false, err := false, errcode := .none, wdrop := false }, ie := false, result := 0#32
        cfg := { alg := 0#32, digits := 6#32, stepSeconds := 30#32, startTime := 0#64, past := 0#32, future := 0#32 }
        act := { alg := .sha1, digits := 6#4, stepSeconds := 30#32, startTime := 0#64, past := 0#7, future := 0#7 }
        counter := 0#64, secretLen := 0#32, candLen := 0#32, now := 0#64, stepReg := 0#64, value := 0#32, dbc := 0#31
        wcount := 0#8, mem := [], rstN := true, clockPin := s.clockPin, rsp := none, owed := s.owed, readData := s.readData
        draws := s.draws, inputs := es }

/-- While the reset pin is low OTPE stays in its reset state, `irq` is 0 and no request is issued (R230); a pin driven low, and
its release, make that state. -/
def Obligations.HeldInReset : Prop :=
  (∀ s t : State, s.rstN = false → s = resetAction s → step s = .next t →
    t = resetAction t ∧ irq t = false ∧ t.owed <:+ s.owed) ∧
  (∀ (s : State) (es : List Event), s.inputs = .rstn false :: es →
    step s = .next { State.reset with
      rstN := false, clockPin := s.clockPin, owed := s.owed, readData := s.readData, draws := s.draws, inputs := es }) ∧
  (∀ (s : State) (es : List Event), s.rstN = false → s.inputs = .rstn true :: es →
    step s = .next { State.reset with
      rstN := true, clockPin := s.clockPin, owed := s.owed, readData := s.readData, draws := s.draws, inputs := es })

/-! ## The invariant -/

/-- The invariant holds right after reset. -/
def Obligations.ResetStateIsGood : Prop := Inv State.reset

/-- Every step of every agent keeps the invariant: canonical memory with only buffer bytes in it (R20, R88), `BUSY` as `PHASE`
(R21), `ERR` as `ERRCODE` (R21), the legal active configuration (R33), the legal `RESULT` (R23), `VALUE` below 2^31 (R42),
`N` and `IDX` in range and a running command behind REQ and WAIT (R57, R131), and the reset state while the pin is low (R230). -/
def Obligations.StepKeepsGoodState : Prop := ∀ s t : State, Inv s → step s = .next t → Inv t
end

