-- ==== Sys2Proof/Laws/Decode.lean ====
section
/-! SUPPORT. The decoder by arithmetic on the word's number (30_encoding.md R111, R120). -/

namespace Sys2Proof

theorem opcodeField_toNat (w : Word) : (opcodeField w).toNat = w.toNat % 256 := by
  simp [opcodeField, BitVec.extractLsb'_toNat]

theorem mbzN_toNat (w : Word) : (mbzN w).toNat = w.toNat / 256 := by
  have := w.isLt
  simp only [mbzN, BitVec.extractLsb'_toNat, Nat.shiftRight_eq_div_pow]
  omega

theorem mbzW_toNat (w : Word) : (mbzW w).toNat = w.toNat / 256 % 256 := by
  simp only [mbzW, BitVec.extractLsb'_toNat, Nat.shiftRight_eq_div_pow]

theorem opcodeField_eq_iff (w : Word) (k : Nat) (hk : k < 256) : opcodeField w = BitVec.ofNat 8 k ↔ w.toNat % 256 = k := by
  rw [← BitVec.toNat_inj, opcodeField_toNat]
  simp [Nat.mod_eq_of_lt hk]

theorem mbzN_eq_zero_iff (w : Word) : mbzN w = 0#24 ↔ w.toNat / 256 = 0 := by
  rw [← BitVec.toNat_inj, mbzN_toNat]
  simp

theorem mbzW_eq_zero_iff (w : Word) : mbzW w = 0#8 ↔ w.toNat / 256 % 256 = 0 := by
  rw [← BitVec.toNat_inj, mbzW_toNat]
  simp

/-- The decoder, clause by clause, on the number of the word. -/
theorem decode_eq (w : Word) : decode w =
    if w.toNat % 256 = 1 ∧ w.toNat / 256 = 0 then .ok .init
    else if w.toNat % 256 = 2 ∧ w.toNat / 256 = 0 then .ok .trunc
    else if w.toNat % 256 = 3 ∧ w.toNat / 256 = 0 then .ok .hotp
    else if w.toNat % 256 = 4 ∧ w.toNat / 256 = 0 then .ok .step
    else if w.toNat % 256 = 5 ∧ w.toNat / 256 % 256 = 0 then .ok (.totp (pastField w) (futureField w))
    else if w.toNat % 256 = 6 ∧ w.toNat / 256 = 0 then .ok .verify
    else if 1 ≤ w.toNat % 256 ∧ w.toNat % 256 ≤ 6 then .error (.mustBeZero (opcodeField w))
    else .error (.opcode (opcodeField w)) := by
  unfold decode decodeN
  simp only [opcodeField_eq_iff w 1 (by omega), opcodeField_eq_iff w 2 (by omega), opcodeField_eq_iff w 3 (by omega),
    opcodeField_eq_iff w 4 (by omega), opcodeField_eq_iff w 5 (by omega), opcodeField_eq_iff w 6 (by omega),
    mbzN_eq_zero_iff, mbzW_eq_zero_iff]
  have h5 : w.toNat % 256 = 5 → opcodeField w = 5#8 := (opcodeField_eq_iff w 5 (by omega)).2
  generalize w.toNat % 256 = n at *
  generalize w.toNat / 256 = z at *
  rcases (by omega : n = 1 ∨ n = 2 ∨ n = 3 ∨ n = 4 ∨ n = 5 ∨ n = 6 ∨ n = 0 ∨ 7 ≤ n) with h | h | h | h | h | h | h | h
  · subst h; simp
  · subst h; simp
  · subst h; simp
  · subst h; simp
  · subst h; simp [h5]
  · subst h; simp
  · subst h; simp
  · have : n ≠ 1 ∧ n ≠ 2 ∧ n ≠ 3 ∧ n ≠ 4 ∧ n ≠ 5 ∧ n ≠ 6 ∧ ¬n ≤ 6 := by omega
    simp [this]

/-- The number of a format W word: its immediates' bytes and the opcode. -/
theorem toNat_formatW (f p : BitVec 8) : (f ++ p ++ 0x0005#16).toNat = f.toNat * 2 ^ 24 + p.toNat * 2 ^ 16 + 5 := by
  have := f.isLt
  have := p.isLt
  rw [BitVec.toNat_append, BitVec.toNat_append, ← Nat.shiftLeft_add_eq_or_of_lt, ← Nat.shiftLeft_add_eq_or_of_lt p.isLt,
    Nat.shiftLeft_eq, Nat.shiftLeft_eq]
  · simp
    omega
  · simp

/-- An immediate in range keeps its value through its 8-bit field (R119). -/
theorem toInt_ofInt_imm8 (x : Int) (h : Imm8 x) : (BitVec.ofInt 8 x).toInt = x := by
  rw [BitVec.toInt_ofInt]
  unfold Imm8 at h
  simp [Int.bmod]
  omega

end Sys2Proof
end

