-- ==== Sys2Proof/Laws/Memory.lean ====
section
/-! SUPPORT. The laws of the byte memory: a read after a write, what a write leaves alone, and the canonical form. -/

namespace Sys2Proof.Machine

/-! ## Reading after writing one byte -/

theorem Memory.erase_cons (c : Host.Cell) (m : Memory) (a : Nat) :
    Memory.erase (c :: m) a = if c.1 ≠ a then c :: Memory.erase m a else Memory.erase m a := by
  simp only [Memory.erase, List.filter_cons, decide_eq_true_eq]

theorem Memory.read_erase (m : Memory) (a b : Nat) : (m.erase a).read b = if a = b then 0#8 else m.read b := by
  induction m with
  | nil => simp [Memory.erase, Memory.read]
  | cons c m ih =>
    rw [Memory.erase_cons]
    split
    · simp only [Memory.read, ih]
      split
      · rw [if_neg]
        rintro rfl
        exact absurd ‹c.1 = a› ‹_›
      · rfl
    · have hc : c.1 = a := by simpa using ‹¬c.1 ≠ a›
      simp only [ih, Memory.read, hc]
      split <;> rfl

theorem Memory.read_insert_of_unlisted (m : Memory) (a b : Nat) (v : Byte) (h : ∀ c ∈ m, c.1 ≠ a) :
    (m.insert a v).read b = if a = b then v else m.read b := by
  induction m with
  | nil => simp [Memory.insert, Memory.read]
  | cons c m ih =>
    have hc : c.1 ≠ a := h c (by simp)
    have ih := ih fun d hd => h d (by simp [hd])
    simp only [Memory.insert]
    split
    · simp only [Memory.read]
    · simp only [Memory.read, ih]
      split
      · rw [if_neg]
        rintro rfl
        exact hc ‹_›
      · rfl

theorem Memory.erase_unlisted (m : Memory) (a : Nat) : ∀ c ∈ m.erase a, c.1 ≠ a := by
  intro c hc
  simpa using (List.mem_filter.mp hc).2

/-- A read after a write: the byte written at its address, and every other byte as before. -/
theorem Memory.read_write (m : Memory) (a b : Nat) (v : Byte) :
    (m.write a v).read b = if a = b then v else m.read b := by
  by_cases hv : v = 0#8
  · simp [Memory.write, hv, Memory.read_erase]
  · rw [Memory.write, if_neg hv, Memory.read_insert_of_unlisted _ _ _ _ (Memory.erase_unlisted m a), Memory.read_erase]
    split <;> rfl

/-! ## Byte sequences -/

/-- A read after writing a byte sequence: the sequence's byte inside, as before outside. -/
theorem Memory.read_writeBytes (bs : List Byte) (m : Memory) (a b : Nat) :
    (m.writeBytes a bs).read b = if a ≤ b ∧ b < a + bs.length then bs.getD (b - a) 0#8 else m.read b := by
  induction bs generalizing m a with
  | nil => have : ¬(a ≤ b ∧ b < a) := by omega
           simp [Memory.writeBytes, this]
  | cons x bs ih =>
    rw [Memory.writeBytes, ih, Memory.read_write]
    by_cases hab : a = b
    · subst hab
      simp
    · by_cases hin : a + 1 ≤ b ∧ b < a + 1 + bs.length
      · have h1 : a ≤ b ∧ b < a + (x :: bs).length := by simp; omega
        have h2 : b - a = b - (a + 1) + 1 := by omega
        rw [if_pos hin, if_pos h1, h2]
        simp
      · have h1 : ¬(a ≤ b ∧ b < a + (x :: bs).length) := by simp; omega
        rw [if_neg hin, if_neg h1, if_neg hab]

/-- Outside the bytes written nothing changes. -/
theorem Memory.read_writeBytes_of_not (bs : List Byte) (m : Memory) (a b : Nat) (h : ¬(a ≤ b ∧ b < a + bs.length)) :
    (m.writeBytes a bs).read b = m.read b := by
  rw [Memory.read_writeBytes, if_neg h]

@[simp] theorem Memory.length_readBytes (m : Memory) (a k : Nat) : (m.readBytes a k).length = k := by
  simp [Memory.readBytes]

theorem Memory.getD_readBytes (m : Memory) (a k j : Nat) (h : j < k) : (m.readBytes a k).getD j 0#8 = m.read (a + j) := by
  simp [Memory.readBytes, List.getD, h]

/-- Two memories that agree on a range give the same byte sequence there. -/
theorem Memory.readBytes_congr (m m' : Memory) (a k : Nat) (h : ∀ j, j < k → m'.read (a + j) = m.read (a + j)) :
    m'.readBytes a k = m.readBytes a k := by
  simp only [Memory.readBytes]
  exact List.map_congr_left fun j hj => h j (by simpa using hj)

/-! ## The canonical form -/

theorem Memory.wf_tail (c : Host.Cell) (m : Memory) (h : Memory.wf (c :: m) = true) : Memory.wf m = true := by
  cases m with
  | nil => rfl
  | cons d m => simp only [Memory.wf, Bool.and_eq_true] at h; exact h.2

/-- In canonical form every later address is higher. -/
theorem Memory.wf_lt (c : Host.Cell) (m : Memory) (h : Memory.wf (c :: m) = true) : ∀ d ∈ m, c.1 < d.1 := by
  induction m generalizing c with
  | nil => simp
  | cons e m ih =>
    simp only [Memory.wf, Bool.and_eq_true, decide_eq_true_eq] at h
    intro d hd
    rcases List.mem_cons.mp hd with rfl | hd
    · exact h.1.2
    · exact Nat.lt_trans h.1.2 (ih e h.2 d hd)

theorem Memory.wf_ne (c : Host.Cell) (m : Memory) (h : Memory.wf (c :: m) = true) : c.2 ≠ 0#8 := by
  cases m with
  | nil => simpa [Memory.wf] using h
  | cons d m => simp only [Memory.wf, Bool.and_eq_true, bne_iff_ne] at h; exact h.1.1

/-- What makes a list with one more entry at its front canonical. -/
theorem Memory.wf_cons (c : Host.Cell) (m : Memory) (hv : c.2 ≠ 0#8) (hm : m.wf = true) (hlt : ∀ d ∈ m, c.1 < d.1) :
    Memory.wf (c :: m) = true := by
  cases m with
  | nil => simpa [Memory.wf] using hv
  | cons d m => simp only [Memory.wf, Bool.and_eq_true, bne_iff_ne, decide_eq_true_eq]; exact ⟨⟨hv, hlt d (by simp)⟩, hm⟩

theorem Memory.wf_erase (m : Memory) (a : Nat) (h : m.wf = true) : (m.erase a).wf = true := by
  induction m with
  | nil => rfl
  | cons c m ih =>
    rw [Memory.erase_cons]
    have ih := ih (Memory.wf_tail c m h)
    split
    · exact Memory.wf_cons c _ (Memory.wf_ne c m h) ih fun d hd =>
        Memory.wf_lt c m h d (List.mem_of_mem_filter hd)
    · exact ih

theorem Memory.mem_insert (m : Memory) (a : Nat) (v : Byte) (c : Host.Cell) :
    c ∈ m.insert a v ↔ c = (a, v) ∨ c ∈ m := by
  induction m with
  | nil => simp [Memory.insert]
  | cons d m ih =>
    by_cases h : a < d.1
    · simp [Memory.insert, h]
    · simp only [Memory.insert, h, if_false, List.mem_cons, ih]; tauto

theorem Memory.wf_insert (m : Memory) (a : Nat) (v : Byte) (hv : v ≠ 0#8) (hun : ∀ c ∈ m, c.1 ≠ a) (h : m.wf = true) :
    (m.insert a v).wf = true := by
  induction m with
  | nil => simpa [Memory.insert, Memory.wf] using hv
  | cons c m ih =>
    by_cases hlt : a < c.1
    · simp only [Memory.insert, hlt, if_true]
      refine Memory.wf_cons _ _ hv h fun d hd => ?_
      rcases List.mem_cons.mp hd with rfl | hd
      · exact hlt
      · exact Nat.lt_trans hlt (Memory.wf_lt c m h d hd)
    · simp only [Memory.insert, hlt, if_false]
      refine Memory.wf_cons c _ (Memory.wf_ne c m h) (ih (fun d hd => hun d (by simp [hd])) (Memory.wf_tail c m h)) fun d hd => ?_
      rcases (Memory.mem_insert m a v d).mp hd with rfl | hd
      · have := hun c (by simp)
        simp only; omega
      · exact Memory.wf_lt c m h d hd

/-- Every write keeps the canonical form. -/
theorem Memory.wf_write (m : Memory) (a : Nat) (v : Byte) (h : m.wf = true) : (m.write a v).wf = true := by
  unfold Memory.write
  split
  · exact Memory.wf_erase m a h
  · exact Memory.wf_insert _ a v ‹_› (Memory.erase_unlisted m a) (Memory.wf_erase m a h)

/-- Writing a byte sequence keeps the canonical form. -/
theorem Memory.wf_writeBytes (bs : List Byte) (m : Memory) (a : Nat) (h : m.wf = true) : (m.writeBytes a bs).wf = true := by
  induction bs generalizing m a with
  | nil => exact h
  | cons b bs ih => exact ih _ _ (Memory.wf_write m a b h)

/-- Writing a word keeps the canonical form. -/
theorem Memory.wf_writeWord (m : Memory) (a : Nat) (v : Word) (h : m.wf = true) : (m.writeWord a v).wf = true :=
  Memory.wf_writeBytes _ m a h

/-! ## Which addresses are listed -/

/-- A write lists no address but its own and those listed before. -/
theorem Memory.mem_write (m : Memory) (a : Nat) (v : Byte) (c : Host.Cell) (h : c ∈ m.write a v) : c.1 = a ∨ c ∈ m := by
  unfold Memory.write at h
  split at h
  · exact .inr (List.mem_of_mem_filter h)
  · rcases (Memory.mem_insert _ a v c).mp h with rfl | h
    · exact .inl rfl
    · exact .inr (List.mem_of_mem_filter h)

/-- Writing a byte sequence lists no address but its own and those listed before. -/
theorem Memory.mem_writeBytes (bs : List Byte) (m : Memory) (a : Nat) (c : Host.Cell) (h : c ∈ m.writeBytes a bs) :
    (a ≤ c.1 ∧ c.1 < a + bs.length) ∨ c ∈ m := by
  induction bs generalizing m a with
  | nil => exact .inr h
  | cons b bs ih =>
    rcases ih _ _ h with h | h
    · left; simp; omega
    · rcases Memory.mem_write m a b c h with h | h
      · left; simp; omega
      · exact .inr h

/-! ## Words -/

@[simp] theorem length_wordBytes (v : Word) : (wordBytes v).length = 4 := rfl

/-- The word at an address depends on its four bytes alone. -/
theorem Memory.readWord_congr (m m' : Memory) (a : Nat) (h : ∀ j, j < 4 → m'.read (a + j) = m.read (a + j)) :
    m'.readWord a = m.readWord a := by
  simp only [Memory.readWord, h 3 (by omega), h 2 (by omega), h 1 (by omega)]
  rw [show m'.read a = m.read a from h 0 (by omega)]

@[simp] theorem length_be8 (c : DWord) : (be8 c).length = 8 := by simp [be8]

end Sys2Proof.Machine
end

