-- ==== Sys2Proof/Laws/State.lean ====
section
/-! SUPPORT. What each named update of the state does to each field, so that no later proof unfolds a record update. -/

namespace Sys2Proof.Machine

/-! ### Acceptance (R125) -/

@[simp] theorem accept_phase (w : Word) (s : State) : (accept w s).phase = .decode := rfl
@[simp] theorem accept_ir (w : Word) (s : State) : (accept w s).ir = w := rfl
@[simp] theorem accept_idx (w : Word) (s : State) : (accept w s).idx = s.idx := rfl
@[simp] theorem accept_n (w : Word) (s : State) : (accept w s).n = s.n := rfl
@[simp] theorem accept_msg0 (w : Word) (s : State) : (accept w s).msg0 = s.msg0 := rfl
@[simp] theorem accept_status (w : Word) (s : State) : (accept w s).status = { s.status with busy := true, done := false, err := false, errcode := .none } := rfl
@[simp] theorem accept_ie (w : Word) (s : State) : (accept w s).ie = s.ie := rfl
@[simp] theorem accept_result (w : Word) (s : State) : (accept w s).result = 0#32 := rfl
@[simp] theorem accept_cfg (w : Word) (s : State) : (accept w s).cfg = s.cfg := rfl
@[simp] theorem accept_act (w : Word) (s : State) : (accept w s).act = s.act := rfl
@[simp] theorem accept_counter (w : Word) (s : State) : (accept w s).counter = s.counter := rfl
@[simp] theorem accept_secretLen (w : Word) (s : State) : (accept w s).secretLen = s.secretLen := rfl
@[simp] theorem accept_candLen (w : Word) (s : State) : (accept w s).candLen = s.candLen := rfl
@[simp] theorem accept_now (w : Word) (s : State) : (accept w s).now = s.now := rfl
@[simp] theorem accept_stepReg (w : Word) (s : State) : (accept w s).stepReg = s.stepReg := rfl
@[simp] theorem accept_value (w : Word) (s : State) : (accept w s).value = s.value := rfl
@[simp] theorem accept_dbc (w : Word) (s : State) : (accept w s).dbc = s.dbc := rfl
@[simp] theorem accept_wcount (w : Word) (s : State) : (accept w s).wcount = s.wcount := rfl
@[simp] theorem accept_mem (w : Word) (s : State) : (accept w s).mem = s.mem := rfl
@[simp] theorem accept_rstN (w : Word) (s : State) : (accept w s).rstN = s.rstN := rfl
@[simp] theorem accept_clockPin (w : Word) (s : State) : (accept w s).clockPin = s.clockPin := rfl
@[simp] theorem accept_rsp (w : Word) (s : State) : (accept w s).rsp = s.rsp := rfl
@[simp] theorem accept_owed (w : Word) (s : State) : (accept w s).owed = s.owed := rfl
@[simp] theorem accept_readData (w : Word) (s : State) : (accept w s).readData = s.readData := rfl
@[simp] theorem accept_draws (w : Word) (s : State) : (accept w s).draws = s.draws := rfl
@[simp] theorem accept_inputs (w : Word) (s : State) : (accept w s).inputs = s.inputs := rfl

/-! ### Completion (R202) -/

@[simp] theorem complete_phase (code : ErrCode) (s : State) : (complete code s).phase = .idle := rfl
@[simp] theorem complete_ir (code : ErrCode) (s : State) : (complete code s).ir = s.ir := rfl
@[simp] theorem complete_idx (code : ErrCode) (s : State) : (complete code s).idx = s.idx := rfl
@[simp] theorem complete_n (code : ErrCode) (s : State) : (complete code s).n = s.n := rfl
@[simp] theorem complete_msg0 (code : ErrCode) (s : State) : (complete code s).msg0 = s.msg0 := rfl
@[simp] theorem complete_status (code : ErrCode) (s : State) : (complete code s).status = { s.status with busy := false, done := true, errcode := code, err := decide (code ≠ .none) } := rfl
@[simp] theorem complete_ie (code : ErrCode) (s : State) : (complete code s).ie = s.ie := rfl
@[simp] theorem complete_result (code : ErrCode) (s : State) : (complete code s).result = s.result := rfl
@[simp] theorem complete_cfg (code : ErrCode) (s : State) : (complete code s).cfg = s.cfg := rfl
@[simp] theorem complete_act (code : ErrCode) (s : State) : (complete code s).act = s.act := rfl
@[simp] theorem complete_counter (code : ErrCode) (s : State) : (complete code s).counter = s.counter := rfl
@[simp] theorem complete_secretLen (code : ErrCode) (s : State) : (complete code s).secretLen = s.secretLen := rfl
@[simp] theorem complete_candLen (code : ErrCode) (s : State) : (complete code s).candLen = s.candLen := rfl
@[simp] theorem complete_now (code : ErrCode) (s : State) : (complete code s).now = s.now := rfl
@[simp] theorem complete_stepReg (code : ErrCode) (s : State) : (complete code s).stepReg = s.stepReg := rfl
@[simp] theorem complete_value (code : ErrCode) (s : State) : (complete code s).value = s.value := rfl
@[simp] theorem complete_dbc (code : ErrCode) (s : State) : (complete code s).dbc = s.dbc := rfl
@[simp] theorem complete_wcount (code : ErrCode) (s : State) : (complete code s).wcount = s.wcount := rfl
@[simp] theorem complete_mem (code : ErrCode) (s : State) : (complete code s).mem = s.mem := rfl
@[simp] theorem complete_rstN (code : ErrCode) (s : State) : (complete code s).rstN = s.rstN := rfl
@[simp] theorem complete_clockPin (code : ErrCode) (s : State) : (complete code s).clockPin = s.clockPin := rfl
@[simp] theorem complete_rsp (code : ErrCode) (s : State) : (complete code s).rsp = s.rsp := rfl
@[simp] theorem complete_owed (code : ErrCode) (s : State) : (complete code s).owed = s.owed := rfl
@[simp] theorem complete_readData (code : ErrCode) (s : State) : (complete code s).readData = s.readData := rfl
@[simp] theorem complete_draws (code : ErrCode) (s : State) : (complete code s).draws = s.draws := rfl
@[simp] theorem complete_inputs (code : ErrCode) (s : State) : (complete code s).inputs = s.inputs := rfl

/-! ### A draw -/

@[simp] theorem drawn_phase (s : State) : (drawn s).phase = s.phase := rfl
@[simp] theorem drawn_ir (s : State) : (drawn s).ir = s.ir := rfl
@[simp] theorem drawn_idx (s : State) : (drawn s).idx = s.idx := rfl
@[simp] theorem drawn_n (s : State) : (drawn s).n = s.n := rfl
@[simp] theorem drawn_msg0 (s : State) : (drawn s).msg0 = s.msg0 := rfl
@[simp] theorem drawn_status (s : State) : (drawn s).status = s.status := rfl
@[simp] theorem drawn_ie (s : State) : (drawn s).ie = s.ie := rfl
@[simp] theorem drawn_result (s : State) : (drawn s).result = s.result := rfl
@[simp] theorem drawn_cfg (s : State) : (drawn s).cfg = s.cfg := rfl
@[simp] theorem drawn_act (s : State) : (drawn s).act = s.act := rfl
@[simp] theorem drawn_counter (s : State) : (drawn s).counter = s.counter := rfl
@[simp] theorem drawn_secretLen (s : State) : (drawn s).secretLen = s.secretLen := rfl
@[simp] theorem drawn_candLen (s : State) : (drawn s).candLen = s.candLen := rfl
@[simp] theorem drawn_now (s : State) : (drawn s).now = s.now := rfl
@[simp] theorem drawn_stepReg (s : State) : (drawn s).stepReg = s.stepReg := rfl
@[simp] theorem drawn_value (s : State) : (drawn s).value = s.value := rfl
@[simp] theorem drawn_dbc (s : State) : (drawn s).dbc = s.dbc := rfl
@[simp] theorem drawn_wcount (s : State) : (drawn s).wcount = s.wcount := rfl
@[simp] theorem drawn_mem (s : State) : (drawn s).mem = s.mem := rfl
@[simp] theorem drawn_rstN (s : State) : (drawn s).rstN = s.rstN := rfl
@[simp] theorem drawn_clockPin (s : State) : (drawn s).clockPin = s.clockPin := rfl
@[simp] theorem drawn_rsp (s : State) : (drawn s).rsp = s.rsp := rfl
@[simp] theorem drawn_owed (s : State) : (drawn s).owed = s.owed := rfl
@[simp] theorem drawn_readData (s : State) : (drawn s).readData = s.readData := rfl
@[simp] theorem drawn_draws (s : State) : (drawn s).draws = s.draws + 1 := rfl
@[simp] theorem drawn_inputs (s : State) : (drawn s).inputs = s.inputs := rfl

/-! ### The request (R128) -/

@[simp] theorem issue_phase (r : HmacReq) (s : State) : (issue r s).phase = .wait := rfl
@[simp] theorem issue_ir (r : HmacReq) (s : State) : (issue r s).ir = s.ir := rfl
@[simp] theorem issue_idx (r : HmacReq) (s : State) : (issue r s).idx = s.idx := rfl
@[simp] theorem issue_n (r : HmacReq) (s : State) : (issue r s).n = s.n := rfl
@[simp] theorem issue_msg0 (r : HmacReq) (s : State) : (issue r s).msg0 = s.msg0 := rfl
@[simp] theorem issue_status (r : HmacReq) (s : State) : (issue r s).status = s.status := rfl
@[simp] theorem issue_ie (r : HmacReq) (s : State) : (issue r s).ie = s.ie := rfl
@[simp] theorem issue_result (r : HmacReq) (s : State) : (issue r s).result = s.result := rfl
@[simp] theorem issue_cfg (r : HmacReq) (s : State) : (issue r s).cfg = s.cfg := rfl
@[simp] theorem issue_act (r : HmacReq) (s : State) : (issue r s).act = s.act := rfl
@[simp] theorem issue_counter (r : HmacReq) (s : State) : (issue r s).counter = s.counter := rfl
@[simp] theorem issue_secretLen (r : HmacReq) (s : State) : (issue r s).secretLen = s.secretLen := rfl
@[simp] theorem issue_candLen (r : HmacReq) (s : State) : (issue r s).candLen = s.candLen := rfl
@[simp] theorem issue_now (r : HmacReq) (s : State) : (issue r s).now = s.now := rfl
@[simp] theorem issue_stepReg (r : HmacReq) (s : State) : (issue r s).stepReg = s.stepReg := rfl
@[simp] theorem issue_value (r : HmacReq) (s : State) : (issue r s).value = s.value := rfl
@[simp] theorem issue_dbc (r : HmacReq) (s : State) : (issue r s).dbc = s.dbc := rfl
@[simp] theorem issue_wcount (r : HmacReq) (s : State) : (issue r s).wcount = s.wcount := rfl
@[simp] theorem issue_mem (r : HmacReq) (s : State) : (issue r s).mem = s.mem := rfl
@[simp] theorem issue_rstN (r : HmacReq) (s : State) : (issue r s).rstN = s.rstN := rfl
@[simp] theorem issue_clockPin (r : HmacReq) (s : State) : (issue r s).clockPin = s.clockPin := rfl
@[simp] theorem issue_rsp (r : HmacReq) (s : State) : (issue r s).rsp = s.rsp := rfl
@[simp] theorem issue_owed (r : HmacReq) (s : State) : (issue r s).owed = s.owed ++ [r] := rfl
@[simp] theorem issue_readData (r : HmacReq) (s : State) : (issue r s).readData = s.readData := rfl
@[simp] theorem issue_draws (r : HmacReq) (s : State) : (issue r s).draws = s.draws := rfl
@[simp] theorem issue_inputs (r : HmacReq) (s : State) : (issue r s).inputs = s.inputs := rfl

/-! ### Truncation into the registers (R129, R145) -/

@[simp] theorem truncateInto_phase (h : List Byte) (s : State) : (truncateInto h s).phase = s.phase := rfl
@[simp] theorem truncateInto_ir (h : List Byte) (s : State) : (truncateInto h s).ir = s.ir := rfl
@[simp] theorem truncateInto_idx (h : List Byte) (s : State) : (truncateInto h s).idx = s.idx := rfl
@[simp] theorem truncateInto_n (h : List Byte) (s : State) : (truncateInto h s).n = s.n := rfl
@[simp] theorem truncateInto_msg0 (h : List Byte) (s : State) : (truncateInto h s).msg0 = s.msg0 := rfl
@[simp] theorem truncateInto_status (h : List Byte) (s : State) : (truncateInto h s).status = s.status := rfl
@[simp] theorem truncateInto_ie (h : List Byte) (s : State) : (truncateInto h s).ie = s.ie := rfl
@[simp] theorem truncateInto_result (h : List Byte) (s : State) : (truncateInto h s).result = s.result := rfl
@[simp] theorem truncateInto_cfg (h : List Byte) (s : State) : (truncateInto h s).cfg = s.cfg := rfl
@[simp] theorem truncateInto_act (h : List Byte) (s : State) : (truncateInto h s).act = s.act := rfl
@[simp] theorem truncateInto_counter (h : List Byte) (s : State) : (truncateInto h s).counter = s.counter := rfl
@[simp] theorem truncateInto_secretLen (h : List Byte) (s : State) : (truncateInto h s).secretLen = s.secretLen := rfl
@[simp] theorem truncateInto_candLen (h : List Byte) (s : State) : (truncateInto h s).candLen = s.candLen := rfl
@[simp] theorem truncateInto_now (h : List Byte) (s : State) : (truncateInto h s).now = s.now := rfl
@[simp] theorem truncateInto_stepReg (h : List Byte) (s : State) : (truncateInto h s).stepReg = s.stepReg := rfl
@[simp] theorem truncateInto_value (h : List Byte) (s : State) : (truncateInto h s).value = BitVec.ofNat 32 (truncateValue h (digitsOf s)) := rfl
@[simp] theorem truncateInto_dbc (h : List Byte) (s : State) : (truncateInto h s).dbc = dbcOf h := rfl
@[simp] theorem truncateInto_wcount (h : List Byte) (s : State) : (truncateInto h s).wcount = s.wcount := rfl
@[simp] theorem truncateInto_mem (h : List Byte) (s : State) : (truncateInto h s).mem = s.mem.writeBytes codeBase (codeFieldOf (truncateValue h (digitsOf s)) (digitsOf s)) := rfl
@[simp] theorem truncateInto_rstN (h : List Byte) (s : State) : (truncateInto h s).rstN = s.rstN := rfl
@[simp] theorem truncateInto_clockPin (h : List Byte) (s : State) : (truncateInto h s).clockPin = s.clockPin := rfl
@[simp] theorem truncateInto_rsp (h : List Byte) (s : State) : (truncateInto h s).rsp = s.rsp := rfl
@[simp] theorem truncateInto_owed (h : List Byte) (s : State) : (truncateInto h s).owed = s.owed := rfl
@[simp] theorem truncateInto_readData (h : List Byte) (s : State) : (truncateInto h s).readData = s.readData := rfl
@[simp] theorem truncateInto_draws (h : List Byte) (s : State) : (truncateInto h s).draws = s.draws := rfl
@[simp] theorem truncateInto_inputs (h : List Byte) (s : State) : (truncateInto h s).inputs = s.inputs := rfl

/-! ### The digest buffer (R129) -/

@[simp] theorem storeDigest_phase (h : List Byte) (s : State) : (storeDigest h s).phase = s.phase := rfl
@[simp] theorem storeDigest_ir (h : List Byte) (s : State) : (storeDigest h s).ir = s.ir := rfl
@[simp] theorem storeDigest_idx (h : List Byte) (s : State) : (storeDigest h s).idx = s.idx := rfl
@[simp] theorem storeDigest_n (h : List Byte) (s : State) : (storeDigest h s).n = s.n := rfl
@[simp] theorem storeDigest_msg0 (h : List Byte) (s : State) : (storeDigest h s).msg0 = s.msg0 := rfl
@[simp] theorem storeDigest_status (h : List Byte) (s : State) : (storeDigest h s).status = s.status := rfl
@[simp] theorem storeDigest_ie (h : List Byte) (s : State) : (storeDigest h s).ie = s.ie := rfl
@[simp] theorem storeDigest_result (h : List Byte) (s : State) : (storeDigest h s).result = s.result := rfl
@[simp] theorem storeDigest_cfg (h : List Byte) (s : State) : (storeDigest h s).cfg = s.cfg := rfl
@[simp] theorem storeDigest_act (h : List Byte) (s : State) : (storeDigest h s).act = s.act := rfl
@[simp] theorem storeDigest_counter (h : List Byte) (s : State) : (storeDigest h s).counter = s.counter := rfl
@[simp] theorem storeDigest_secretLen (h : List Byte) (s : State) : (storeDigest h s).secretLen = s.secretLen := rfl
@[simp] theorem storeDigest_candLen (h : List Byte) (s : State) : (storeDigest h s).candLen = s.candLen := rfl
@[simp] theorem storeDigest_now (h : List Byte) (s : State) : (storeDigest h s).now = s.now := rfl
@[simp] theorem storeDigest_stepReg (h : List Byte) (s : State) : (storeDigest h s).stepReg = s.stepReg := rfl
@[simp] theorem storeDigest_value (h : List Byte) (s : State) : (storeDigest h s).value = s.value := rfl
@[simp] theorem storeDigest_dbc (h : List Byte) (s : State) : (storeDigest h s).dbc = s.dbc := rfl
@[simp] theorem storeDigest_wcount (h : List Byte) (s : State) : (storeDigest h s).wcount = s.wcount := rfl
@[simp] theorem storeDigest_mem (h : List Byte) (s : State) : (storeDigest h s).mem = s.mem.writeBytes digestBase (h ++ List.replicate (Config.digestMax - h.length) 0#8) := rfl
@[simp] theorem storeDigest_rstN (h : List Byte) (s : State) : (storeDigest h s).rstN = s.rstN := rfl
@[simp] theorem storeDigest_clockPin (h : List Byte) (s : State) : (storeDigest h s).clockPin = s.clockPin := rfl
@[simp] theorem storeDigest_rsp (h : List Byte) (s : State) : (storeDigest h s).rsp = s.rsp := rfl
@[simp] theorem storeDigest_owed (h : List Byte) (s : State) : (storeDigest h s).owed = s.owed := rfl
@[simp] theorem storeDigest_readData (h : List Byte) (s : State) : (storeDigest h s).readData = s.readData := rfl
@[simp] theorem storeDigest_draws (h : List Byte) (s : State) : (storeDigest h s).draws = s.draws := rfl
@[simp] theorem storeDigest_inputs (h : List Byte) (s : State) : (storeDigest h s).inputs = s.inputs := rfl

/-! ### The window entry (R129): nothing but memory changes -/

@[simp] theorem storeWin_phase (w : Bool) (h : List Byte) (s : State) : (storeWin w h s).phase = s.phase := by unfold storeWin; split <;> rfl
@[simp] theorem storeWin_ir (w : Bool) (h : List Byte) (s : State) : (storeWin w h s).ir = s.ir := by unfold storeWin; split <;> rfl
@[simp] theorem storeWin_idx (w : Bool) (h : List Byte) (s : State) : (storeWin w h s).idx = s.idx := by unfold storeWin; split <;> rfl
@[simp] theorem storeWin_n (w : Bool) (h : List Byte) (s : State) : (storeWin w h s).n = s.n := by unfold storeWin; split <;> rfl
@[simp] theorem storeWin_msg0 (w : Bool) (h : List Byte) (s : State) : (storeWin w h s).msg0 = s.msg0 := by unfold storeWin; split <;> rfl
@[simp] theorem storeWin_status (w : Bool) (h : List Byte) (s : State) : (storeWin w h s).status = s.status := by unfold storeWin; split <;> rfl
@[simp] theorem storeWin_ie (w : Bool) (h : List Byte) (s : State) : (storeWin w h s).ie = s.ie := by unfold storeWin; split <;> rfl
@[simp] theorem storeWin_result (w : Bool) (h : List Byte) (s : State) : (storeWin w h s).result = s.result := by unfold storeWin; split <;> rfl
@[simp] theorem storeWin_cfg (w : Bool) (h : List Byte) (s : State) : (storeWin w h s).cfg = s.cfg := by unfold storeWin; split <;> rfl
@[simp] theorem storeWin_act (w : Bool) (h : List Byte) (s : State) : (storeWin w h s).act = s.act := by unfold storeWin; split <;> rfl
@[simp] theorem storeWin_counter (w : Bool) (h : List Byte) (s : State) : (storeWin w h s).counter = s.counter := by unfold storeWin; split <;> rfl
@[simp] theorem storeWin_secretLen (w : Bool) (h : List Byte) (s : State) : (storeWin w h s).secretLen = s.secretLen := by unfold storeWin; split <;> rfl
@[simp] theorem storeWin_candLen (w : Bool) (h : List Byte) (s : State) : (storeWin w h s).candLen = s.candLen := by unfold storeWin; split <;> rfl
@[simp] theorem storeWin_now (w : Bool) (h : List Byte) (s : State) : (storeWin w h s).now = s.now := by unfold storeWin; split <;> rfl
@[simp] theorem storeWin_stepReg (w : Bool) (h : List Byte) (s : State) : (storeWin w h s).stepReg = s.stepReg := by unfold storeWin; split <;> rfl
@[simp] theorem storeWin_value (w : Bool) (h : List Byte) (s : State) : (storeWin w h s).value = s.value := by unfold storeWin; split <;> rfl
@[simp] theorem storeWin_dbc (w : Bool) (h : List Byte) (s : State) : (storeWin w h s).dbc = s.dbc := by unfold storeWin; split <;> rfl
@[simp] theorem storeWin_wcount (w : Bool) (h : List Byte) (s : State) : (storeWin w h s).wcount = s.wcount := by unfold storeWin; split <;> rfl
@[simp] theorem storeWin_rstN (w : Bool) (h : List Byte) (s : State) : (storeWin w h s).rstN = s.rstN := by unfold storeWin; split <;> rfl
@[simp] theorem storeWin_clockPin (w : Bool) (h : List Byte) (s : State) : (storeWin w h s).clockPin = s.clockPin := by unfold storeWin; split <;> rfl
@[simp] theorem storeWin_rsp (w : Bool) (h : List Byte) (s : State) : (storeWin w h s).rsp = s.rsp := by unfold storeWin; split <;> rfl
@[simp] theorem storeWin_owed (w : Bool) (h : List Byte) (s : State) : (storeWin w h s).owed = s.owed := by unfold storeWin; split <;> rfl
@[simp] theorem storeWin_readData (w : Bool) (h : List Byte) (s : State) : (storeWin w h s).readData = s.readData := by unfold storeWin; split <;> rfl
@[simp] theorem storeWin_draws (w : Bool) (h : List Byte) (s : State) : (storeWin w h s).draws = s.draws := by unfold storeWin; split <;> rfl
@[simp] theorem storeWin_inputs (w : Bool) (h : List Byte) (s : State) : (storeWin w h s).inputs = s.inputs := by unfold storeWin; split <;> rfl

end Sys2Proof.Machine
end

