-- ==== Sys2Proof/Laws/Ops.lean ====
section
/-! SUPPORT. For each shared operation of the commands, once, everything it can do. -/

namespace Sys2Proof.Machine

/-! ## Completion -/

theorem complete_eq (c : ErrCode) (s : State) : complete c s = { s with status := endedStatus c s, phase := .idle } := rfl

theorem raise_eq (c : ErrCode) (s : State) : raise c s = errorEnd c 0 s := rfl

theorem raise_drawn_eq (c : ErrCode) (s : State) : raise c (drawn s) = errorEnd c 1 s := rfl

/-! ## The checks -/

theorem secretTooLong_iff (s : State) : secretTooLong s = true ↔ 128 < s.secretLen.toNat := by
  exact decide_eq_true_iff

theorem secretTooLong_eq_false_iff (s : State) : secretTooLong s = false ↔ s.secretLen.toNat ≤ 128 := by
  rw [← Bool.not_eq_true, secretTooLong_iff, Nat.not_lt]

theorem inI64_iff (x : Int) : inI64 x = true ↔ -2 ^ 63 ≤ x ∧ x ≤ 2 ^ 63 - 1 := by
  simp only [inI64, Bool.and_eq_true, decide_eq_true_eq]

theorem windowInI64_iff (x : Int) (p f : Nat) :
    windowInI64 x p f = true ↔ -2 ^ 63 ≤ x - p ∧ x + f ≤ 2 ^ 63 - 1 := by
  simp only [windowInI64, Bool.and_eq_true, inI64_iff]
  omega

theorem coe_clamp0 (x : Int) : (clamp0 x : Int) = x ⊔ 0 := by simp [clamp0]

theorem algOf_eq_some_iff (w : Word) (a : Alg) : algOf w = some a ↔ algCode a = w := by
  constructor
  · intro h
    unfold algOf at h
    repeat' split at h
    all_goals first | (cases h; simp [algCode, *]) | cases h
  · rintro rfl
    cases a <;> decide

theorem stagedInRange_iff (c : Staged) : stagedInRange c = true ↔
    (6 ≤ c.digits.toNat ∧ c.digits.toNat ≤ 10) ∧ 1 ≤ c.stepSeconds.toInt ∧ (0 ≤ c.past.toInt ∧ c.past.toInt ≤ 127) ∧
      (0 ≤ c.future.toInt ∧ c.future.toInt ≤ 127) := by
  simp only [stagedInRange, Bool.and_eq_true, decide_eq_true_eq]
  simp only [Config.sideMax]
  omega

/-- What `INIT` makes of a staged configuration it does not refuse. -/
theorem construct_eq_some_iff (c : Staged) (a : Active) : construct c = some a ↔
    stagedInRange c = true ∧ algCode a.alg = c.alg ∧ a.digits = c.digits.setWidth 4 ∧ a.stepSeconds = c.stepSeconds ∧
      a.startTime = c.startTime ∧ a.past = c.past.setWidth 7 ∧ a.future = c.future.setWidth 7 := by
  unfold construct
  cases halg : algOf c.alg with
  | none =>
    refine ⟨fun h => by simp at h, fun h => ?_⟩
    have := (algOf_eq_some_iff c.alg a.alg).2 h.2.1
    rw [halg] at this
    cases this
  | some b =>
    have hb := (algOf_eq_some_iff c.alg b).1 halg
    constructor
    · intro h
      by_cases hr : stagedInRange c = true
      · simp only [hr, if_true, Option.some.injEq] at h
        subst h
        exact ⟨hr, hb, rfl, rfl, rfl, rfl, rfl⟩
      · simp [hr] at h
    · rintro ⟨hr, ha, h1, h2, h3, h4, h5⟩
      have : b = a.alg := by
        have := (algOf_eq_some_iff c.alg a.alg).2 ha
        rw [halg] at this
        exact Option.some.inj this
      subst this
      simp only [hr, if_true, ← h1, ← h2, ← h3, ← h4, ← h5]

/-! ## The arms of the decode step -/

/-- A window command's arm starts the window or ends with `E_RANGE`. -/
theorem windowArm_cases (p f : Nat) (s : State) :
    (windowInI64 (stepNow s) p f = true ∧ windowArm p f s =
      { s with
        now := clockNow s, stepReg := BitVec.ofInt 64 (stepNow s), n := p + 1 + f, idx := 0
        msg0 := BitVec.ofInt 64 (stepNow s - p), phase := .req, draws := s.draws + 1 }) ∨
    (windowInI64 (stepNow s) p f = false ∧ windowArm p f s = errorEnd .range 1 s) := by
  unfold windowArm
  by_cases h : windowInI64 (stepNow s) p f = true
  · exact .inl ⟨h, by rw [if_pos h]; rfl⟩
  · exact .inr ⟨by simpa using h, by rw [if_neg h]; rfl⟩

/-- `STEP`'s arm completes with the step or ends with `E_RANGE`. -/
theorem stepArm_cases (s : State) :
    (inI64 (stepNow s) = true ∧ stepArm s =
      { s with
        now := clockNow s, stepReg := BitVec.ofInt 64 (stepNow s), status := endedStatus .none s, phase := .idle
        draws := s.draws + 1 }) ∨
    (inI64 (stepNow s) = false ∧ stepArm s = errorEnd .range 1 s) := by
  unfold stepArm
  by_cases h : inI64 (stepNow s) = true
  · exact .inl ⟨h, by rw [if_pos h]; rfl⟩
  · exact .inr ⟨by simpa using h, by rw [if_neg h]; rfl⟩

/-- `INIT`'s arm makes the staged configuration active or ends with `E_CONFIG`. -/
theorem initArm_cases (s : State) :
    (∃ a, construct s.cfg = some a ∧ initArm s = { s with act := a, status := endedStatus .none s, phase := .idle }) ∨
    (construct s.cfg = none ∧ initArm s = errorEnd .config 0 s) := by
  unfold initArm
  cases h : construct s.cfg with
  | none => exact .inr ⟨rfl, rfl⟩
  | some a => exact .inl ⟨a, rfl, rfl⟩

/-- The common check of the decode step. -/
theorem secretChecked_cases (rest : State → State) (s : State) :
    (128 < s.secretLen.toNat ∧ secretChecked rest s = errorEnd .secret 0 s) ∨
    (s.secretLen.toNat ≤ 128 ∧ secretChecked rest s = rest s) := by
  unfold secretChecked
  by_cases h : secretTooLong s = true
  · exact .inl ⟨(secretTooLong_iff s).1 h, by rw [if_pos h]; rfl⟩
  · exact .inr ⟨(secretTooLong_eq_false_iff s).1 (by simpa using h), by rw [if_neg h]⟩

/-! ## The wait step -/

/-- The wait step: stuck without a record, else the record is stored and the next position or the finalisation is due. -/
theorem waitStep_cases (windowed : Bool) (last : State → State) (s : State) :
    (s.rsp = none ∧ waitStep windowed last s = s) ∨
    ∃ d, s.rsp = some d ∧
      ((s.idx + 1 < s.n ∧ waitStep windowed last s =
          { storeCode windowed (usedBytes s d) { s with rsp := none } with idx := s.idx + 1, phase := .req }) ∨
       (s.n ≤ s.idx + 1 ∧ waitStep windowed last s =
          last { storeCode windowed (usedBytes s d) { s with rsp := none } with idx := s.idx + 1 })) := by
  unfold waitStep advance
  cases h : s.rsp with
  | none => exact .inl ⟨rfl, rfl⟩
  | some d =>
    refine .inr ⟨d, rfl, ?_⟩
    have hi : (storeCode windowed (usedBytes s d) { s with rsp := none }).idx = s.idx := by simp [storeCode]
    have hn : (storeCode windowed (usedBytes s d) { s with rsp := none }).n = s.n := by simp [storeCode]
    simp only [hi, hn]
    by_cases hlt : s.idx + 1 < s.n
    · exact .inl ⟨hlt, by rw [if_pos hlt]⟩
    · exact .inr ⟨by omega, by rw [if_neg hlt]⟩

/-! ## Lengths -/

theorem digestLen_le (a : Alg) : digestLen a ≤ 64 := by cases a <;> decide

theorem length_usedBytes (s : State) (d : Digest) : (usedBytes s d).length = lenOf s := by
  simp [usedBytes, lenOf, digestLen_le]

theorem length_codeFieldOf (v d : Nat) : (codeFieldOf v d).length = 12 := by
  simp [codeFieldOf, formatCode, Config.codeField]; omega

theorem length_winBytes (s : State) (h : List Byte) : (winBytes s h).length = 16 := by
  simp [winBytes, length_codeFieldOf, length_wordBytes]

/-- Byte `k` of the code field, by the statements' own reading of it (R144). -/
theorem getD_codeFieldOf (v d k : Nat) (hk : k < 12) : (codeFieldOf v d).getD k 0#8 = codeByte v d k := by
  unfold codeFieldOf codeByte formatCode Config.codeField
  rw [List.getD_eq_getElem?_getD, List.getElem?_take, if_pos hk]
  by_cases h : k < d
  · rw [List.getElem?_append_left (by simpa using h), if_pos h]
    simp [h]
  · rw [List.getElem?_append_right (by simpa using h), if_neg h, List.getElem?_replicate]
    split <;> rfl

/-! ## What the wait step stores, byte by byte -/

theorem winBytes_storeDigest (h g : List Byte) (s : State) : winBytes (truncateInto h (storeDigest h s)) g = winBytes s g := rfl

/-- The memory after storing a digest (R129), read at any address. -/
theorem read_storeCode (windowed : Bool) (h : List Byte) (s : State) (a : Nat) (hl : h.length ≤ 64) :
    (storeCode windowed h s).mem.read a =
      if windowed = true ∧ Within (winEntry s.idx) 16 a then (winBytes s h).getD (a - winEntry s.idx) 0#8
      else if Within codeBase 12 a then codeByte (truncateValue h (digitsOf s)) (digitsOf s) (a - codeBase)
      else if Within digestBase 64 a then h.getD (a - digestBase) 0#8
      else s.mem.read a := by
  have hd : (h ++ List.replicate (Config.digestMax - h.length) 0#8).length = 64 := by
    simp [Config.digestMax]; omega
  have hz : ∀ k, (h ++ List.replicate (Config.digestMax - h.length) 0#8).getD k 0#8 = h.getD k 0#8 := by
    intro k
    simp only [List.getD_eq_getElem?_getD]
    by_cases hk : k < h.length
    · rw [List.getElem?_append_left hk]
    · rw [List.getElem?_append_right (by omega), List.getElem?_replicate, List.getElem?_eq_none (by omega)]
      split <;> rfl
  have hcode : (truncateInto h (storeDigest h s)).mem.read a =
      if Within codeBase 12 a then codeByte (truncateValue h (digitsOf s)) (digitsOf s) (a - codeBase)
      else if Within digestBase 64 a then h.getD (a - digestBase) 0#8 else s.mem.read a := by
    simp only [truncateInto_mem, storeDigest_mem, Memory.read_writeBytes, length_codeFieldOf, hd, hz, Within]
    split
    · rw [getD_codeFieldOf _ _ _ (by omega)]
      rfl
    · rfl
  cases windowed with
  | false => simpa [storeCode, storeWin] using hcode
  | true =>
    have hs : (storeCode true h s).mem =
        (truncateInto h (storeDigest h s)).mem.writeBytes (winEntry s.idx) (winBytes s h) := rfl
    simp only [hs, Memory.read_writeBytes, length_winBytes, hcode, true_and, Within]

/-- The three stored regions do not meet: the window lies above the registers. -/
theorem winEntry_ge (i : Nat) : 0x1000 ≤ winEntry i := by unfold winEntry; omega

theorem getD_winBytes_chars (s : State) (h : List Byte) (k : Nat) (hk : k < 12) :
    (winBytes s h).getD k 0#8 = codeByte (truncateValue h (digitsOf s)) (digitsOf s) k := by
  rw [← getD_codeFieldOf _ _ _ hk, winBytes, List.getD_eq_getElem?_getD, List.getD_eq_getElem?_getD,
    List.getElem?_append_left (by rw [length_codeFieldOf]; exact hk)]

theorem getD_winBytes_value (s : State) (h : List Byte) (j : Nat) (hj : j < 4) :
    (winBytes s h).getD (12 + j) 0#8 = lane (BitVec.ofNat 32 (truncateValue h (digitsOf s))) j := by
  rw [winBytes, List.getD_eq_getElem?_getD, List.getElem?_append_right (by rw [length_codeFieldOf]; omega),
    length_codeFieldOf, Nat.add_sub_cancel_left]
  rcases (by omega : j = 0 ∨ j = 1 ∨ j = 2 ∨ j = 3) with rfl | rfl | rfl | rfl <;> rfl

theorem truncateValue_lt (h : List Byte) (d : Nat) : truncateValue h d < 2 ^ 31 :=
  Nat.lt_of_le_of_lt (Nat.mod_le _ _) (dbcOf h).isLt

theorem toNat_value (h : List Byte) (d : Nat) : (BitVec.ofNat 32 (truncateValue h d)).toNat = truncateValue h d := by
  have := truncateValue_lt h d
  rw [BitVec.toNat_ofNat, Nat.mod_eq_of_lt (by omega)]

/-- Concatenation as arithmetic. -/
theorem toNat_append_eq {n m : Nat} (x : BitVec n) (y : BitVec m) : (x ++ y).toNat = x.toNat * 2 ^ m + y.toNat := by
  rw [BitVec.toNat_append, ← Nat.shiftLeft_add_eq_or_of_lt y.isLt, Nat.shiftLeft_eq]

/-- The four lanes of a word make the word (R78). -/
theorem lanes_append (v : Word) : lane v 3 ++ lane v 2 ++ lane v 1 ++ lane v 0 = v := by
  have := v.isLt
  rw [← BitVec.toNat_inj, toNat_append_eq, toNat_append_eq, toNat_append_eq]
  simp only [lane, BitVec.extractLsb'_toNat, Nat.shiftRight_eq_div_pow]
  omega

/-- Everything the wait step stores (R129), for every state the storing leads to that keeps its `DBC`, `VALUE` and memory. -/
theorem digestTaken_storeCode (windowed : Bool) (h : List Byte) (s t : State) (hl : h.length ≤ 64)
    (hd : t.dbc = (storeCode windowed h s).dbc) (hv : t.value = (storeCode windowed h s).value)
    (hm : t.mem = (storeCode windowed h s).mem) : DigestTaken windowed h s t := by
  have hval : t.value = BitVec.ofNat 32 (truncateValue h (digitsOf s)) := by
    rw [hv]
    simp [storeCode]
    rfl
  have hnat : t.value.toNat = truncateValue h (digitsOf s) := by rw [hval, toNat_value]
  have hw := winEntry_ge s.idx
  refine ⟨fun k hk => ?_, by rw [hd]; simp [storeCode], hnat, fun k hk => ?_, fun hwin k hk => ?_, fun hwin => ?_,
    fun a h1 h2 h3 => ?_⟩
  · show t.mem.read (digestBase + k) = _
    rw [hm, read_storeCode _ _ _ _ hl, if_neg (by simp only [Within, digestBase]; omega),
      if_neg (by simp only [Within, digestBase, codeBase]; omega), if_pos ⟨by omega, by omega⟩, Nat.add_sub_cancel_left]
  · show t.mem.read (codeBase + k) = codeByte t.value.toNat (digitsOf s) k
    rw [hm, read_storeCode _ _ _ _ hl, if_neg (by simp only [Within, codeBase]; omega), if_pos ⟨by omega, by omega⟩,
      Nat.add_sub_cancel_left, hnat]
  · show t.mem.read (winEntry s.idx + k) = codeByte t.value.toNat (digitsOf s) k
    rw [hm, read_storeCode _ _ _ _ hl, if_pos ⟨hwin, by omega, by omega⟩, Nat.add_sub_cancel_left,
      getD_winBytes_chars _ _ _ hk, hnat]
  · have hb : ∀ j, j < 4 → t.mem.read (winEntry s.idx + 12 + j) = lane t.value j := by
      intro j hj
      rw [hm, read_storeCode _ _ _ _ hl, if_pos ⟨hwin, by omega, by omega⟩,
        show winEntry s.idx + 12 + j - winEntry s.idx = 12 + j by omega, getD_winBytes_value _ _ _ hj, hval]
    show t.mem.readWord (winEntry s.idx + 12) = t.value
    rw [Memory.readWord, hb 3 (by omega), hb 2 (by omega), hb 1 (by omega),
      show t.mem.read (winEntry s.idx + 12) = lane t.value 0 from hb 0 (by omega), lanes_append]
  · rw [hm, read_storeCode _ _ _ _ hl]
    exact (if_neg h3).trans ((if_neg h2).trans (if_neg h1))

/-! ## The words of an outcome -/

/-- The word of `Success(o)` for every offset: its number and every bit of it (R23, R176). -/
theorem isSuccess_resultWord (o : Int) : IsSuccess (resultWord (some o)) o := by
  have hn : (resultWord (some o)).toNat = (BitVec.ofInt 8 o).toNat * 256 + 3 := by
    rw [resultWord, toNat_append_eq, toNat_append_eq]
    simp
  have key : ∀ b : BitVec 8, (0#16 ++ b ++ 0x03#8).getLsbD 0 = true ∧ (0#16 ++ b ++ 0x03#8).getLsbD 1 = true ∧
      (∀ i, (2 ≤ i ∧ i ≤ 7) ∨ 16 ≤ i → (0#16 ++ b ++ 0x03#8).getLsbD i = false) ∧
      (0#16 ++ b ++ 0x03#8).extractLsb' 8 8 = b := by
    intro b
    refine ⟨by rw [BitVec.getLsbD_append, if_pos (by omega)]; rfl, by rw [BitVec.getLsbD_append, if_pos (by omega)]; rfl,
      fun i hi => ?_, ?_⟩
    · rw [BitVec.getLsbD_append, BitVec.getLsbD_append]
      rcases hi with ⟨h1, h2⟩ | h
      · have : i = 2 ∨ i = 3 ∨ i = 4 ∨ i = 5 ∨ i = 6 ∨ i = 7 := by omega
        rcases this with rfl | rfl | rfl | rfl | rfl | rfl <;> rfl
      · have h1 : ¬i < 8 := by omega
        have h2 : ¬i - 8 < 8 := by omega
        simp [h1, h2]
    · have := b.isLt
      rw [← BitVec.toNat_inj, BitVec.extractLsb'_toNat, toNat_append_eq, toNat_append_eq, Nat.shiftRight_eq_div_pow]
      simp
      omega
  obtain ⟨h0, h1, h2, h3⟩ := key (BitVec.ofInt 8 o)
  refine ⟨?_, h0, h1, h2, fun hl hu => ?_⟩
  · rw [hn]
    simp [BitVec.toNat_ofInt]
    omega
  · rw [resultWord, h3, BitVec.toInt_ofInt]
    simp [Int.bmod]
    omega

end Sys2Proof.Machine
end

