-- ==== Sys2Proof/Laws/Step.lean ====
section
/-! SUPPORT. Everything one step of OTPE and the agents around it can do (20_memory.md R81). -/

namespace Sys2Proof.Machine

/-- Every command's meaning answers a next state in every state (60_exceptions.md R220). -/
theorem exec_next (i : Instr) (s : State) : ∃ t, exec i s = .next t := by cases i <;> exact ⟨_, rfl⟩

/-- Where a listed event hands OTPE a record: a delivery or an answer comes next. -/
abbrev RecordNext (s : State) : Prop := (∃ d es, s.inputs = .deliver d :: es) ∨ ∃ es, s.inputs = .answer :: es

/-- The pair `fetch` makes for a sequencer turn in `u`, which differs from `s` in what the agents hold only. -/
inductive TurnCase (s : State) : State × Option Instr → Prop where
  /-- the sequencer runs the command in `IR` -/
  | runs (i : Instr) (hd : decode s.ir = .ok i) (hr : s.rstN = true)
      (hp : s.phase = .decode ∨ s.phase = .req ∨ (s.phase = .wait ∧ s.rsp ≠ none)) : TurnCase s (s, some i)
  /-- the word in `IR` is illegal -/
  | illegal (e : Illegal) (hd : decode s.ir = .error e) (hr : s.rstN = true) (hp : s.phase = .decode) :
      TurnCase s (raise .illegal s, none)
  /-- no step is enabled -/
  | stays (h : s.rstN = true → s.phase = .idle ∨ (s.phase = .wait ∧ s.rsp = none) ∨
      ((s.phase = .req ∨ s.phase = .wait) ∧ ∃ e, decode s.ir = .error e)) : TurnCase s (s, none)

theorem engineTurn_cases (s : State) : TurnCase s (engineTurn s) := by
  unfold engineTurn
  by_cases hr : s.rstN = true
  · rw [if_pos hr]
    split
    · exact .stays fun _ => .inl ‹_›
    · unfold decodeTurn
      split
      · exact .runs _ ‹_› hr (.inl ‹_›)
      · exact .illegal _ ‹_› hr ‹_›
    · unfold running
      split
      · exact .runs _ ‹_› hr (.inr (.inl ‹_›))
      · exact .stays fun _ => .inr (.inr ⟨.inl ‹_›, _, ‹_›⟩)
    · split
      · exact .stays fun _ => .inr (.inl ⟨‹_›, ‹_›⟩)
      · unfold running
        split
        · exact .runs _ ‹_› hr (.inr (.inr ⟨‹_›, ‹_›⟩))
        · exact .stays fun _ => .inr (.inr ⟨.inr ‹_›, _, ‹_›⟩)
  · rw [if_neg hr]
    exact .stays fun h => absurd h hr

/-- Everything one step can do. `es`, `owed`, `rsp`, `clock`, `data` and `draws` are what the agents around OTPE hold after the
event. -/
inductive StepCase (s t : State) : Prop where
  /-- the sequencer takes a step of the command in `IR` -/
  | exec (i : Instr) (es : List Event) (owed : List HmacReq) (rsp : Option Digest) (hr : s.rstN = true)
      (hd : decode s.ir = .ok i) (hp : s.phase = .decode ∨ s.phase = .req ∨ (s.phase = .wait ∧ rsp ≠ none))
      (hrsp : rsp = s.rsp ∨ (s.phase = .wait ∧ RecordNext s))
      (he : exec i { s with inputs := es, owed := owed, rsp := rsp } = .next t)
  /-- the decode step of an illegal word -/
  | illegal (e : Illegal) (es : List Event) (hr : s.rstN = true) (hd : decode s.ir = .error e) (hp : s.phase = .decode)
      (ht : t = errorEnd .illegal 0 { s with inputs := es })
  /-- a host write that is served and is no reset -/
  | write (w : BitVec 11) (v : Word) (es : List Event) (hr : s.rstN = true) (hi : s.inputs = .write w v :: es)
      (hn : noResetNext s = true) (ht : t = hostWrite w v { s with inputs := es })
  /-- a reset -/
  | reset (level : Bool) (es : List Event) (hn : noResetNext s = false)
      (ht : t = { resetAction s with rstN := level, inputs := es })
  /-- nothing of OTPE changes -/
  | outside (es : List Event) (owed : List HmacReq) (clock : Option DWord) (data : Option Word) (draws : Nat)
      (ho : owed <:+ s.owed)
      (ht : t = { s with inputs := es, owed := owed, clockPin := clock, readData := data, draws := draws })
  /-- a record for a word in REQ or WAIT that names no command, which no reachable state holds (log 11) -/
  | lost (es : List Event) (owed : List HmacReq) (d : Digest) (e : Illegal) (hd : decode s.ir = .error e)
      (hp : s.phase = .wait) (hi : RecordNext s) (ht : t = { s with inputs := es, owed := owed, rsp := some d })

theorem outside_inputs (s : State) (es : List Event) : StepCase s { s with inputs := es } :=
  .outside es s.owed s.clockPin s.readData s.draws (List.suffix_refl _) rfl

/-- What `step` makes of the pair that `fetch` gives. -/
abbrev moved (p : State × Option Instr) : Host.Outcome State Fault Refusal :=
  match p with
  | (u, some i) => Sys2Proof.Machine.exec i u
  | (u, none) => .next u

/-- A sequencer turn is one of the cases. -/
theorem stepCase_turn (s t : State) (es : List Event)
    (h : moved (engineTurn { s with inputs := es }) = .next t) :
    StepCase s t := by
  generalize hu : engineTurn { s with inputs := es } = p at h
  have hc := engineTurn_cases { s with inputs := es }
  rw [hu] at hc
  cases hc with
  | runs i hd hr hp => exact .exec i es s.owed s.rsp hr hd hp (.inl rfl) h
  | illegal e hd hr hp =>
    cases h
    exact .illegal e es hr hd hp rfl
  | stays =>
    cases h
    exact outside_inputs s es

/-- A delivery is one of the cases. -/
theorem stepCase_delivery (s t : State) (es : List Event) (d : Digest) (hi : RecordNext s)
    (h : moved (delivery d { s with inputs := es }) = .next t) :
    StepCase s t := by
  unfold delivery at h
  by_cases hw : s.rstN = true ∧ s.phase = .wait
  · simp only [if_pos hw] at h
    generalize hu : engineTurn { s with inputs := es, owed := s.owed.tail, rsp := some d } = p at h
    have hc := engineTurn_cases { s with inputs := es, owed := s.owed.tail, rsp := some d }
    rw [hu] at hc
    cases hc with
    | runs i hd hr hp =>
      exact .exec i es s.owed.tail (some d) hr hd (.inr (.inr ⟨hw.2, by simp⟩)) (.inr ⟨hw.2, hi⟩) h
    | illegal e hd hr hp => exact absurd (hw.2.symm.trans hp) (by decide)
    | stays hs =>
      cases h
      rcases hs hw.1 with hh | ⟨_, hh⟩ | ⟨_, e, hd⟩
      · exact absurd (hw.2.symm.trans hh) (by decide)
      · exact absurd hh (by simp)
      · exact .lost es s.owed.tail d e hd hw.2 hi rfl
  · simp only [if_neg hw, Host.Outcome.next.injEq] at h
    subst h
    exact .outside es s.owed.tail s.clockPin s.readData s.draws (List.tail_suffix _) rfl

/-- A write of `CTRL.SRST` is the reset action and nothing else (70_reset_and_hazards.md R232). -/
theorem hostWrite_srst (v : Word) (s : State) (h : v.getLsbD 31 = true) : hostWrite 0x002#11 v s = resetAction s := by
  have h2 : regAt 0x002#11 = .ctrl := by decide
  simp only [hostWrite, h2, isOperand, Bool.and_false, storeReg, h, if_true]
  rfl

/-- Everything a step can do. -/
theorem step_cases (s t : State) (h : step s = .next t) : StepCase s t := by
  replace h : moved (fetch s) = .next t := h
  unfold fetch at h
  generalize hin : s.inputs = l at h
  cases l with
  | nil => exact stepCase_turn s t s.inputs h
  | cons e es =>
    cases e with
    | read w =>
      simp only [perform, served] at h
      split at h
      · cases h
        unfold hostRead
        split
        · exact .outside es s.owed s.clockPin _ (s.draws + 1) (List.suffix_refl _) rfl
        · exact .outside es s.owed s.clockPin _ s.draws (List.suffix_refl _) rfl
      · cases h
        exact .outside es s.owed s.clockPin none s.draws (List.suffix_refl _) rfl
    | write w v =>
      simp only [perform, served] at h
      split at h
      · rename_i hr
        cases h
        by_cases hn : noResetNext s = true
        · exact .write w v es hr hin hn rfl
        · have hn' : noResetNext s = false := by simpa using hn
          have hw : w = 0x002#11 ∧ v.getLsbD 31 = true := by
            simpa [noResetNext, hin] using hn'
          obtain ⟨rfl, hv⟩ := hw
          rw [hostWrite_srst v _ hv]
          exact .reset s.rstN es hn' rfl
      · cases h
        exact outside_inputs s es
    | rstn level =>
      simp only [perform, pinReset] at h
      split at h
      · cases h
        exact outside_inputs s es
      · cases h
        exact .reset level es (by simp [noResetNext, hin]) rfl
    | clock c =>
      cases h
      exact .outside es s.owed (some c) s.readData s.draws (List.suffix_refl _) rfl
    | deliver d => exact stepCase_delivery s t es d (.inl ⟨d, es, hin⟩) h
    | answer =>
      simp only [perform, answer] at h
      split at h
      · cases h
        exact outside_inputs s es
      · exact stepCase_delivery s t es _ (.inr ⟨es, hin⟩) h
    | drain =>
      cases h
      exact .outside es [] s.clockPin s.readData s.draws (List.nil_suffix) rfl
    | turn => exact stepCase_turn s t es h

/-! ## Runs -/

/-- A run takes its first step and goes on, on any machine. -/
theorem run_succ (M : Host.Core) (k : Nat) (s t : M.State) (h : M.step s = .next t) : M.run (k + 1) s = M.run k t := by
  simp only [Host.Core.run, h]

/-- A run takes its first step and goes on. -/
theorem core_run_succ (k : Nat) (s t : State) (h : step s = .next t) :
    Sys2Proof.core.run (k + 1) s = Sys2Proof.core.run k t := run_succ Sys2Proof.core k s t h

theorem core_run_zero (s : State) : Sys2Proof.core.run 0 s = .next s := rfl

end Sys2Proof.Machine
end

