-- ==== Sys2Proof/Laws/Exchange.lean ====
section
/-! SUPPORT. The request and wait steps of a command with an HMAC unit that keeps its duty (20_memory.md R93, R94;
30_encoding.md R128, R129): one exchange, and the whole loop over the window positions. -/

namespace Sys2Proof.Machine

/-- A request step and the answer to it: position `IDX` is stored, and the next is due or the command finishes. -/
theorem exchange_steps (c : Instr) (w : Bool) (start last : State → State)
    (hc : ∀ s, exec c s = .next (hmacCommand w start last s)) (u : State) (rest : List Event) (hr : u.rstN = true)
    (hp : u.phase = .req) (hd : decode u.ir = .ok c) (ho : u.owed = []) (hi : u.inputs = .turn :: .answer :: rest) :
    ∃ v, step u = .next v ∧ step v = .next (advance last
      (storeCode w (dutyDigest u u.msg0 u.idx) { u with inputs := rest, phase := .wait, rsp := none })) := by
  refine ⟨requestStep { u with inputs := .answer :: rest }, ?_, ?_⟩
  · simp [step, fetch, hi, perform, engineTurn, hr, hp, running, hd, hc, hmacCommand]
  · have key : ∀ v : State, v.rstN = true → v.phase = .wait → decode v.ir = .ok c → v.inputs = .answer :: rest →
        ∀ r, v.owed = [r] →
        step v = exec c { v with inputs := rest, owed := [], rsp := some (Config.hmac r.alg r.key r.msg) } := by
      intro v h1 h2 h3 h4 r h5
      simp [step, fetch, h4, perform, answer, h5, delivery, engineTurn, h1, h2, running, h3]
    rw [key (requestStep { u with inputs := .answer :: rest }) hr rfl hd rfl (requestFor { u with inputs := .answer :: rest })
      (by simp [requestStep, issue, ho]), hc, hmacCommand]
    simp only [requestStep, issue, waitStep]
    rw [← ho]
    rfl

/-- What holds between the exchanges of a command that started in `s` with the window's first counter `m`. -/
structure Loop (w : Bool) (s u : State) (m : DWord) : Prop where
  first : u.msg0 = m
  win : w = true → ∀ i, i < u.idx →
    HoldsCode u.mem (0x1000 + 16 * i) (dutyValue s m i) s.act.digits.toNat ∧
      (u.mem.readWord (0x1000 + 16 * i + 12)).toNat = dutyValue s m i
  rest : ∀ a, ¬Within digestBase 64 a → ¬Within codeBase 12 a → ¬(w = true ∧ Within 0x1000 (16 * u.idx) a) →
    u.mem.read a = s.mem.read a
  frame : u = { s with
    mem := u.mem, dbc := u.dbc, value := u.value, idx := u.idx, phase := u.phase, inputs := u.inputs, rsp := u.rsp
    now := u.now, stepReg := u.stepReg, n := u.n, msg0 := u.msg0, draws := u.draws }

theorem Loop.act {w : Bool} {s u : State} {m : DWord} (h : Loop w s u m) : u.act = s.act := by rw [h.frame]

/-- The secret is read unchanged at every position (R36). -/
theorem Loop.secret {w : Bool} {s u : State} {m : DWord} (h : Loop w s u m) (hs : s.secretLen.toNat ≤ 128) :
    u.mem.readBytes 0x100 u.secretLen.toNat = s.mem.readBytes 0x100 s.secretLen.toNat := by
  have hl : u.secretLen = s.secretLen := by rw [h.frame]
  rw [hl]
  refine Memory.readBytes_congr _ _ _ _ fun j hj => ?_
  exact h.rest _ (by simp only [Within, digestBase]; omega) (by simp only [Within, codeBase]; omega)
    (by simp only [Within]; omega)

/-- The digest of the position is the one of the command's start. -/
theorem Loop.duty {w : Bool} {s u : State} {m : DWord} (h : Loop w s u m) (hs : s.secretLen.toNat ≤ 128) :
    dutyDigest u u.msg0 u.idx = dutyDigest s m u.idx := by
  simp only [dutyDigest, h.act, h.secret hs, h.first]

/-- The state after the answer for position `u.idx`. -/
abbrev stored (w : Bool) (u : State) (rest : List Event) (ph : Phase) : State :=
  { storeCode w (dutyDigest u u.msg0 u.idx) { u with inputs := rest, phase := .wait, rsp := none } with
    idx := u.idx + 1, phase := ph }

/-- An exchange keeps the loop's invariant and stores its position. -/
theorem Loop.next {w : Bool} {s u : State} {m : DWord} (h : Loop w s u m) (hs : s.secretLen.toNat ≤ 128)
    (rest : List Event) (ph : Phase) :
    Loop w s (stored w u rest ph) m ∧ DigestTaken w (dutyDigest s m u.idx) u (stored w u rest ph) := by
  have hl : (dutyDigest s m u.idx).length ≤ 64 := (List.length_take_le _ _).trans (digestLen_le _)
  have dt : DigestTaken w (dutyDigest s m u.idx) u (stored w u rest ph) := by
    have := digestTaken_storeCode w (dutyDigest s m u.idx) { u with inputs := rest, phase := .wait, rsp := none }
      (stored w u rest ph) hl (by simp only [h.duty hs]) (by simp only [h.duty hs])
      (by simp only [h.duty hs])
    exact ⟨this.1, this.2, this.3, this.4, this.5, this.6, this.7⟩
  refine ⟨⟨?_, ?_, ?_, ?_⟩, dt⟩
  · simp [storeCode, h.first]
  · intro hwt i hi
    have hi : i < u.idx + 1 := hi
    by_cases he : i = u.idx
    · subst he
      have tv := dt.value
      rw [h.act] at tv
      have chars := dt.chars hwt
      rw [h.act, tv] at chars
      exact ⟨chars, (congrArg BitVec.toNat (dt.winValue hwt)).trans tv⟩
    · obtain ⟨a, b⟩ := h.win hwt i (by omega)
      have hr : ∀ k, k < 16 → (stored w u rest ph).mem.read (0x1000 + 16 * i + k) = u.mem.read (0x1000 + 16 * i + k) := by
        intro k hk
        exact dt.rest _ (by simp only [Within]; omega) (by simp only [Within]; omega)
          (by simp only [Within]; omega)
      refine ⟨fun k hk => (hr k (by omega)).trans (a k hk), ?_⟩
      rw [← b]
      refine congrArg BitVec.toNat (Memory.readWord_congr _ _ _ fun j hj => ?_)
      have := hr (12 + j) (by omega)
      rwa [← Nat.add_assoc] at this
  · intro a h1 h2 h3
    have h3' : w = true → ¬Within 0x1000 (16 * (u.idx + 1)) a := fun hw hh => h3 ⟨hw, hh⟩
    rw [dt.rest a h1 h2 (by rintro ⟨hw, hh⟩; have := h3' hw; simp only [Within] at hh this; omega)]
    exact h.rest a h1 h2 (by rintro ⟨hw, hh⟩; have := h3' hw; simp only [Within] at hh this; omega)
  · have := h.frame
    simp only [stored, storeCode, storeWin]
    split <;> (rw [this]; rfl)

/-- The whole loop: from the first request at position `u.idx` to the last answer, `2 k` steps for `k` positions. -/
theorem loop_run (c : Instr) (w : Bool) (start last : State → State)
    (hc : ∀ s, exec c s = .next (hmacCommand w start last s)) (s : State) (m : DWord) (es : List Event)
    (hs : s.secretLen.toNat ≤ 128) (hr : s.rstN = true) (hd : decode s.ir = .ok c) (ho : s.owed = []) :
    ∀ (k : Nat) (u : State), 1 ≤ k → u.idx + k = u.n → Loop w s u m → u.phase = .req → u.inputs = exchanges k ++ es →
    ∃ v u', Sys2Proof.core.run (2 * k) u = .next (last v) ∧ Loop w s v m ∧ v.idx = u.n ∧ v.n = u.n ∧ v.inputs = es ∧
      v.rsp = none ∧ v.now = u.now ∧ v.stepReg = u.stepReg ∧ v.draws = u.draws ∧
      DigestTaken w (dutyDigest s m (u.n - 1)) u' v ∧ u'.act = s.act := by
  intro k
  induction k with
  | zero => intro u h; omega
  | succ k ih =>
    intro u _ hn hL hp hi
    have f := hL.frame
    obtain ⟨v, h1, h2⟩ := exchange_steps c w start last hc u (exchanges k ++ es) (by rw [f]; exact hr) hp
      (by rw [f]; exact hd) (by rw [f]; exact ho) hi
    have en : (storeCode w (dutyDigest u u.msg0 u.idx)
        { u with inputs := exchanges k ++ es, phase := .wait, rsp := none }).n = u.n := by simp [storeCode]
    have ei : (storeCode w (dutyDigest u u.msg0 u.idx)
        { u with inputs := exchanges k ++ es, phase := .wait, rsp := none }).idx = u.idx := by simp [storeCode]
    by_cases hk : k = 0
    · subst hk
      obtain ⟨hL', hdt⟩ := hL.next hs (exchanges 0 ++ es) .wait
      have hv : { storeCode w (dutyDigest u u.msg0 u.idx)
          { u with inputs := exchanges 0 ++ es, phase := .wait, rsp := none } with idx := u.idx + 1 } =
          stored w u (exchanges 0 ++ es) .wait := by simp [storeCode]
      rw [advance, if_neg (by rw [en, ei]; omega), ei, hv] at h2
      refine ⟨stored w u (exchanges 0 ++ es) .wait, u, ?_, hL', by simp; omega, by simp [storeCode],
        by simp [storeCode, exchanges], by simp [storeCode], by simp [storeCode],
        by simp [storeCode], by simp [storeCode], ?_, hL.act⟩
      · rw [core_run_succ _ _ _ h1, core_run_succ _ _ _ h2]
        rfl
      · rw [show u.n - 1 = u.idx by omega]
        exact hdt
    · obtain ⟨hL', _⟩ := hL.next hs (exchanges k ++ es) .req
      rw [advance, if_pos (by rw [en, ei]; omega), ei] at h2
      have en' : (stored w u (exchanges k ++ es) .req).n = u.n := en
      obtain ⟨w1, w2, g1, g2, g3, g4, g5, g6, g7, g8, g9, g10, g11⟩ := ih (stored w u (exchanges k ++ es) .req) (by omega)
        (by rw [en']; show u.idx + 1 + k = u.n; omega) hL' rfl (by simp [storeCode])
      rw [en'] at g3 g4 g10
      refine ⟨w1, w2, ?_, g2, g3, g4, g5, g6, by rw [g7]; simp [storeCode], by rw [g8]; simp [storeCode],
        by rw [g9]; simp [storeCode], g10, g11⟩
      rw [show 2 * (k + 1) = 2 * k + 1 + 1 by omega, core_run_succ _ _ _ h1, core_run_succ _ _ _ h2]
      exact g1

end Sys2Proof.Machine
end

