-- ==== Sys2Proof/Laws/PerInstr.lean ====
section
/-! SUPPORT. What holds of each command as syntax: the fixed bits of its row of spec/opcode_table.json (30_encoding.md R112). -/

namespace Sys2Proof

/-- The bits a row of R112 fixes: `OPCODE` and the must-be-zero field. -/
def rowMask : Instr → Word
  | .init => 0xFFFFFFFF#32
  | .trunc => 0xFFFFFFFF#32
  | .hotp => 0xFFFFFFFF#32
  | .step => 0xFFFFFFFF#32
  | .totp _ _ => 0x0000FFFF#32
  | .verify => 0xFFFFFFFF#32

/-- What they are. -/
def rowMatch : Instr → Word
  | .init => 0x00000001#32
  | .trunc => 0x00000002#32
  | .hotp => 0x00000003#32
  | .step => 0x00000004#32
  | .totp _ _ => 0x00000005#32
  | .verify => 0x00000006#32

/-- The assembled word has the fixed bits of its row. -/
def Laws.TableWord.Statement (i : Instr) : Prop := encode i &&& rowMask i = rowMatch i

theorem Laws.TableWord.init : Laws.TableWord.Statement .init := rfl

theorem Laws.TableWord.trunc : Laws.TableWord.Statement .trunc := rfl

theorem Laws.TableWord.hotp : Laws.TableWord.Statement .hotp := rfl

theorem Laws.TableWord.step : Laws.TableWord.Statement .step := rfl

theorem Laws.TableWord.totp (past future : Int) : Laws.TableWord.Statement (.totp past future) := by
  have key : ∀ f p : BitVec 8, (f ++ p ++ 0x0005#16) &&& 0x0000FFFF#32 = 0x00000005#32 := by
    intro f p
    rw [← BitVec.toNat_inj, BitVec.toNat_and, show (0x0000FFFF#32).toNat = 2 ^ 16 - 1 from rfl,
      Nat.and_two_pow_sub_one_eq_mod, toNat_formatW]
    simp
    omega
  exact key _ _

theorem Laws.TableWord.verify : Laws.TableWord.Statement .verify := rfl

end Sys2Proof
end

