-- ==== Sys2Proof/Laws/Port.lean ====
section
/-! SUPPORT. The register map by word index, and everything a host write can do (10_state.md R20, 20_memory.md R73, R77). -/

namespace Sys2Proof.Machine

theorem lookup_getD_cons (k a : Nat) (r d : Reg) (l : List (Nat × Reg)) :
    (List.lookup k ((a, r) :: l)).getD d = if k = a then r else (List.lookup k l).getD d := by
  rw [List.lookup_cons]
  by_cases h : k = a
  · simp [h]
  · have : (k == a) = false := by simpa using h
    rw [this, if_neg h]

/-- The register map as one chain of tests. -/
theorem regAt_eq (w : BitVec 11) : regAt w =
    if 0x01C ≤ w.toNat ∧ w.toNat ≤ 0x01E then .cand (4 * w.toNat)
    else if 0x026 ≤ w.toNat ∧ w.toNat ≤ 0x028 then .code (4 * w.toNat)
    else if 0x030 ≤ w.toNat ∧ w.toNat ≤ 0x03F then .digest (4 * w.toNat)
    else if 0x040 ≤ w.toNat ∧ w.toNat ≤ 0x05F then .secret (4 * w.toNat)
    else if 0x400 ≤ w.toNat ∧ w.toNat ≤ 0x7FB then .win (4 * w.toNat)
    else if w.toNat = 0x000 then .cmd
    else if w.toNat = 0x001 then .status
    else if w.toNat = 0x002 then .ctrl
    else if w.toNat = 0x003 then .result
    else if w.toNat = 0x004 then .id
    else if w.toNat = 0x005 then .cap
    else if w.toNat = 0x008 then .cfgAlg
    else if w.toNat = 0x009 then .cfgDigits
    else if w.toNat = 0x00A then .cfgStep
    else if w.toNat = 0x00C then .cfgStartLo
    else if w.toNat = 0x00D then .cfgStartHi
    else if w.toNat = 0x00E then .cfgPast
    else if w.toNat = 0x00F then .cfgFuture
    else if w.toNat = 0x010 then .actAlg
    else if w.toNat = 0x011 then .actDigits
    else if w.toNat = 0x012 then .actStep
    else if w.toNat = 0x014 then .actStartLo
    else if w.toNat = 0x015 then .actStartHi
    else if w.toNat = 0x016 then .actPast
    else if w.toNat = 0x017 then .actFuture
    else if w.toNat = 0x018 then .counterLo
    else if w.toNat = 0x019 then .counterHi
    else if w.toNat = 0x01A then .secretLen
    else if w.toNat = 0x01B then .candLen
    else if w.toNat = 0x020 then .nowLo
    else if w.toNat = 0x021 then .nowHi
    else if w.toNat = 0x022 then .stepLo
    else if w.toNat = 0x023 then .stepHi
    else if w.toNat = 0x024 then .value
    else if w.toNat = 0x025 then .wcount
    else if w.toNat = 0x029 then .dbc
    else .reserved := by
  simp only [regAt, regTable, lookup_getD_cons]
  rfl

/-- A word that carries a byte address lies in its buffer. -/
theorem regAt_buffer (w : BitVec 11) (a : Nat) :
    (regAt w = .cand a → 0x070 ≤ a ∧ a ≤ 0x078) ∧ (regAt w = .code a → 0x098 ≤ a ∧ a ≤ 0x0A0) ∧
    (regAt w = .digest a → 0x0C0 ≤ a ∧ a ≤ 0x0FC) ∧ (regAt w = .secret a → 0x100 ≤ a ∧ a ≤ 0x17C) ∧
    (regAt w = .win a → 0x1000 ≤ a ∧ a ≤ 0x1FEC) := by
  have single : ∀ p ∈ regTable, ∀ b, p.2 ≠ .cand b ∧ p.2 ≠ .code b ∧ p.2 ≠ .digest b ∧ p.2 ≠ .secret b ∧ p.2 ≠ .win b := by
    simp [regTable]
  have key : ∀ b, (regTable.lookup w.toNat).getD .reserved ≠ .cand b ∧ (regTable.lookup w.toNat).getD .reserved ≠ .code b ∧
      (regTable.lookup w.toNat).getD .reserved ≠ .digest b ∧ (regTable.lookup w.toNat).getD .reserved ≠ .secret b ∧
      (regTable.lookup w.toNat).getD .reserved ≠ .win b := by
    intro b
    cases h : regTable.lookup w.toNat with
    | none => simp
    | some r =>
      obtain ⟨l, m, hl, _⟩ := List.lookup_eq_some_iff.1 h
      exact single (w.toNat, r) (by rw [hl]; simp) b
  obtain ⟨k1, k2, k3, k4, k5⟩ := key a
  simp only [regAt]
  refine ⟨fun h => ?_, fun h => ?_, fun h => ?_, fun h => ?_, fun h => ?_⟩
  all_goals
    repeat' split at h
    all_goals first | contradiction | skip
    cases h
    omega

/-- Everything a host write can do. -/
inductive WriteCase (w : BitVec 11) (v : Word) (s t : State) : Prop where
  /-- a write to a word that cannot be written now, or that stores nothing -/
  | dropped (hb : s.status.busy = true) (ht : t = dropWrite s)
  /-- the acceptance of a command word -/
  | accepted (hb : s.status.busy = false) (ht : t = accept v s)
  /-- the staged configuration, the counter and the lengths -/
  | registers (hb : s.status.busy = false) (cfg : Staged) (counter : DWord) (secretLen candLen : Word)
      (ht : t = { s with cfg := cfg, counter := counter, secretLen := secretLen, candLen := candLen })
  /-- four bytes of the candidate, the digest or the secret -/
  | bytes (hb : s.status.busy = false) (a : Nat)
      (ha : (0x070 ≤ a ∧ a ≤ 0x078) ∨ (0x0C0 ≤ a ∧ a ≤ 0x0FC) ∨ (0x100 ≤ a ∧ a ≤ 0x17C))
      (ht : t = { s with mem := s.mem.writeWord a v })
  /-- `STATUS` -/
  | cleared (ht : t = { s with status := s.status.writeOneToClear v })
  /-- `CTRL.IE` -/
  | enabled (ht : t = { s with ie := v.getLsbD 0 })
  /-- `CTRL.SRST` -/
  | reset (hw : w = 0x002#11) (hv : v.getLsbD 31 = true) (ht : t = resetAction s)
  /-- an ignored write -/
  | ignored (ht : t = s)

theorem regAt_ctrl (w : BitVec 11) (h : regAt w = .ctrl) : w = 0x002#11 := by
  have single : ∀ p ∈ regTable, p.2 = .ctrl → p.1 = 2 := by decide
  have key : (regTable.lookup w.toNat).getD .reserved = .ctrl → w.toNat = 2 := by
    cases hl : regTable.lookup w.toNat with
    | none => simp
    | some r =>
      obtain ⟨l, m, hm, _⟩ := List.lookup_eq_some_iff.1 hl
      exact single (w.toNat, r) (by rw [hm]; simp)
  rw [← BitVec.toNat_inj]
  simp only [regAt] at h
  repeat' split at h
  all_goals first | contradiction | exact key h

theorem hostWrite_cases (w : BitVec 11) (v : Word) (s : State) : WriteCase w v s (hostWrite w v s) := by
  unfold hostWrite
  by_cases hb : (s.status.busy && isOperand (regAt w)) = true
  · rw [if_pos hb]
    exact .dropped (by simp at hb; exact hb.1) rfl
  · rw [if_neg hb]
    have hbuf := regAt_buffer w
    have hctrl := regAt_ctrl w
    generalize regAt w = r at *
    cases r with
    | cmd => exact .accepted (by simpa [isOperand] using hb) rfl
    | cfgAlg => exact .registers (by simpa [isOperand] using hb) _ s.counter s.secretLen s.candLen rfl
    | cfgDigits => exact .registers (by simpa [isOperand] using hb) _ s.counter s.secretLen s.candLen rfl
    | cfgStep => exact .registers (by simpa [isOperand] using hb) _ s.counter s.secretLen s.candLen rfl
    | cfgStartLo => exact .registers (by simpa [isOperand] using hb) _ s.counter s.secretLen s.candLen rfl
    | cfgStartHi => exact .registers (by simpa [isOperand] using hb) _ s.counter s.secretLen s.candLen rfl
    | cfgPast => exact .registers (by simpa [isOperand] using hb) _ s.counter s.secretLen s.candLen rfl
    | cfgFuture => exact .registers (by simpa [isOperand] using hb) _ s.counter s.secretLen s.candLen rfl
    | counterLo => exact .registers (by simpa [isOperand] using hb) s.cfg _ s.secretLen s.candLen rfl
    | counterHi => exact .registers (by simpa [isOperand] using hb) s.cfg _ s.secretLen s.candLen rfl
    | secretLen => exact .registers (by simpa [isOperand] using hb) s.cfg s.counter _ s.candLen rfl
    | candLen => exact .registers (by simpa [isOperand] using hb) s.cfg s.counter s.secretLen _ rfl
    | cand a => exact .bytes (by simpa [isOperand] using hb) a (.inl ((hbuf a).1 rfl)) rfl
    | digest a => exact .bytes (by simpa [isOperand] using hb) a (.inr (.inl ((hbuf a).2.2.1 rfl))) rfl
    | secret a => exact .bytes (by simpa [isOperand] using hb) a (.inr (.inr ((hbuf a).2.2.2.1 rfl))) rfl
    | status => exact .cleared rfl
    | ctrl =>
      simp only [storeReg]
      split
      · exact .reset (hctrl rfl) ‹_› rfl
      · exact .enabled rfl
    | _ => exact .ignored rfl

end Sys2Proof.Machine
end

