-- ==== Sys2Proof/Tests/Slice0.lean ====
section
/-! SUPPORT. Tests of the model against 95_test_vectors.md and hand calculation, and for every statement that has hypotheses a
witness that meets them. -/

open Sys2Proof Sys2Proof.Machine

/-! ## Helpers -/

/-- The state of a step that answers one. -/
def Tests.after (o : Host.Outcome State Fault Refusal) : State :=
  match o with
  | .next t => t
  | .fault _ => State.reset
  | .refused _ => State.reset

/-- A word accepted in the state after reset, or in one like it. -/
def Tests.decoding (w : Word) (s : State) : State := accept w { s with inputs := [] }

/-- Right after reset. -/
abbrev Tests.r : State := State.reset

/-- Right after reset with the clock showing `t`. -/
abbrev Tests.clocked (t : DWord) : State := { State.reset with clockPin := some t }

/-- Bytes from a number, most significant first, as the vectors write a digest. -/
def Tests.bytes : Nat → Nat → List Byte
  | 0, _ => []
  | k + 1, x => Tests.bytes k (x / 256) ++ [BitVec.ofNat 8 x]

/-- A record whose first bytes are given. -/
def Tests.record (l : List Byte) : Digest := ⟨⟨(l ++ List.replicate 64 0#8).take 64⟩, by simp⟩

/-- A memory that holds these bytes from the base and nothing else. -/
def Tests.holding (base : Nat) (l : List Byte) : Memory := Memory.writeBytes [] base l

/-- The digest of counter 1 with the RFC key (VH1). -/
def Tests.digest1 : Digest := Tests.record (Tests.bytes 20 0x75a48a19d4cbe100644e8ac1397eea747a2d33ab)

/-- The digests of counter 1 for SHA256 and SHA512 (VH4), which are longer than a SHA1 digest. -/
def Tests.digest256 : Digest :=
  Tests.record (Tests.bytes 32 0x392514c9dd4165d4709456062c78e04e16e68718515951333bdb8b26caa3053c)

def Tests.digest512 : Digest := Tests.record (
  Tests.bytes 32 0x6f76f324230cefda1d3f65309a0badb36efce9528ada64967d71e4e9d74c4aa3 ++
  Tests.bytes 32 0x7fe7650f931ab86ddccc2d38962d720ee626a20feb311b485a92e3bb0796df28)

/-- A command waiting for the record of its last position, or of an earlier one. -/
def Tests.waiting (w : Word) (idx n : Nat) (rsp : Option Digest) : State :=
  { Tests.decoding w State.reset with phase := .wait, idx := idx, n := n, rsp := rsp }

open Tests

/-! ## WellFormed -/

theorem test_wellFormed_bounds :
    wellFormed (.totp (-128) 127) = true ∧ wellFormed (.totp 127 (-128)) = true ∧ wellFormed .init = true := by decide

theorem test_wellFormed_refuses_past_above : wellFormed (.totp 128 0) = false := by decide

theorem test_wellFormed_refuses_past_below : wellFormed (.totp (-129) 0) = false := by decide

theorem test_wellFormed_refuses_future_above : wellFormed (.totp 0 128) = false := by decide

theorem test_wellFormed_refuses_future_below : wellFormed (.totp 0 (-129)) = false := by decide

/-! ## Decode: words written out from 30_encoding.md R113 to R118 and 95_test_vectors.md VE1 to VE8 -/

theorem test_decode_init : decode 0b00000000000000000000000000000001#32 = .ok .init := rfl

theorem test_decode_trunc : decode 0b00000000000000000000000000000010#32 = .ok .trunc := rfl

theorem test_decode_hotp : decode 0b00000000000000000000000000000011#32 = .ok .hotp := rfl

theorem test_decode_step : decode 0b00000000000000000000000000000100#32 = .ok .step := rfl

/-- `future = 2`, `past = -1`, must-be-zero byte, opcode 5. -/
theorem test_decode_totp : decode 0b00000010111111110000000000000101#32 = .ok (.totp (-1) 2) := rfl

theorem test_decode_verify : decode 0b00000000000000000000000000000110#32 = .ok .verify := rfl

theorem test_decode_totp_bounds :
    decode 0x7F7F0005#32 = .ok (.totp 127 127) ∧ decode 0x80800005#32 = .ok (.totp (-128) (-128)) ∧
    decode 0xFFFF0005#32 = .ok (.totp (-1) (-1)) := ⟨rfl, rfl, rfl⟩

theorem test_decode_illegal :
    decode 0x00000000#32 = .error (.opcode 0x00#8) ∧ decode 0x00000007#32 = .error (.opcode 0x07#8) ∧
    decode 0x80000003#32 = .error (.mustBeZero 0x03#8) ∧ decode 0x00010004#32 = .error (.mustBeZero 0x04#8) ∧
    decode 0x0000FF05#32 = .error (.mustBeZero 0x05#8) := ⟨rfl, rfl, rfl, rfl, rfl⟩

theorem test_encode_totp : encode (.totp (-1) 2) = 0x02FF0005#32 := by decide

/-- The host's question: the placed word is the very next thing the sequencer runs. -/
theorem test_withFetchWord : step (State.reset.withFetchWord 32 0x00000003) =
    .next { accept 0x00000003#32 State.reset with n := 1, phase := .req } := rfl

theorem test_decodeTableWord : decodeTableWord 32 0x02FF0005 = some (.totp (-1) 2) := rfl

/-! ## INIT (95_test_vectors.md VI3, VI9) -/

theorem test_init_copies_all : (after (exec .init (decoding 1#32 { r with
      cfg := { alg := 2#32, digits := 10#32, stepSeconds := 60#32, startTime := 0xFFFFFFFFFFFFFFC4#64, past := 127#32
               future := 127#32 } }))).act =
    { alg := .sha512, digits := 10#4, stepSeconds := 60#32, startTime := 0xFFFFFFFFFFFFFFC4#64, past := 127#7, future := 127#7 } :=
  rfl

theorem test_init_refuses_minus_one : (after (exec .init (decoding 1#32 { r with
      cfg := { Staged.reset with past := 0xFFFFFFFF#32 } }))).status.word = 0x00000026#32 := by decide

/-! ## TRUNC (95_test_vectors.md VT3, VT2) -/

theorem test_trunc_last_offset : (after (exec .trunc (decoding 2#32 { r with
      mem := holding 0x0C0 (bytes 20 0x000102030405060708090a0b0c0d0e0f1011124f) }))).value = 711186#32 := by decide +kernel

theorem test_trunc_masks_sign : (after (exec .trunc (decoding 2#32 { r with
      mem := holding 0x0C0 (List.replicate 20 0xFF#8) }))).dbc = 0x7FFFFFFF#31 := by decide +kernel

/-! ## HOTP (95_test_vectors.md P1, VH4) -/

theorem test_hotp_code : ((after (exec .hotp (waiting 3#32 0 1 (some digest1)))).mem.readBytes 0x098 7) =
    [0x32#8, 0x38#8, 0x37#8, 0x30#8, 0x38#8, 0x32#8, 0x00#8] := by decide +kernel

/-- A digest of 64 bytes, whose offset is in its last byte. -/
theorem test_hotp_sha512 : (after (exec .hotp { waiting 3#32 0 1 (some digest512) with
      act := { Active.reset with alg := .sha512 } })).value = 693936#32 := by decide +kernel

/-! ## STEP (95_test_vectors.md VC8, VC18) -/

theorem test_step_floors : (after (exec .step (decoding 4#32 (clocked (BitVec.ofInt 64 (-31)))))).stepReg =
    0xFFFFFFFFFFFFFFFE#64 := by decide

theorem test_step_needs_65_bits : (after (exec .step (decoding 4#32 { clocked 0x7FFFFFFFFFFFFFFF#64 with
      act := { Active.reset with startTime := BitVec.ofInt 64 (-1), stepSeconds := 1#32 } }))).status.word =
    0x00000046#32 := by decide

/-! ## TOTP (95_test_vectors.md VW6, P2: SHA256 with 8 digits, `VALUE = 46119246`) -/

theorem test_totp_negative_steps : (after (exec (.totp 2 (-5)) (decoding 0xFB020005#32 (clocked 0#64)))).msg0 =
    0xFFFFFFFFFFFFFFFE#64 := by decide

theorem test_totp_window_entry : (after (exec (.totp 1 1) { waiting 0x01010005#32 1 3 (some digest256) with
      act := { Active.reset with alg := .sha256, digits := 8#4 } })).mem.readWord 0x101C = 46119246#32 := by decide +kernel

/-! ## VERIFY: the tie-break of 43_verify.md R176 and VV23's offsets, VV15's length -/

/-- A window of three entries, one past step, the candidate equal to the first and, after the last record, to the third. -/
def Tests.tied (len : Word) : State :=
  { waiting 6#32 2 3 (some digest1) with
    candLen := len
    act := { Active.reset with past := 1#7, future := 1#7 }
    mem := (holding 0x070 (bytes 6 0x323837303832)).writeBytes 0x1000 (bytes 6 0x323837303832) }

theorem test_verify_oldest_wins : (after (exec .verify (tied 6#32))).result = 0x0000FF03#32 := by decide +kernel

theorem test_verify_needs_length : (after (exec .verify (tied 5#32))).result = 0x00000001#32 := by decide +kernel

/-! ## Illegal words (95_test_vectors.md section 8, Priority) -/

theorem test_illegal_before_secret : (after (step (decoding 0x00000105#32 { r with secretLen := 200#32 }))).status.word =
    0x00000016#32 := by decide

/-! ## The host port (95_test_vectors.md VP3, VP6, VP13, VP14) -/

theorem test_port_reset_digits : (after (step { r with inputs := [.read 0x009#11] })).readData = some 6#32 := by decide

theorem test_port_secret_reads_zero : (after (step { r with
      mem := holding 0x100 [0x31#8], inputs := [.read 0x040#11] })).readData = some 0#32 := by decide

theorem test_port_soft_reset : ctrlWord (after (step { r with ie := true, inputs := [.write 0x002#11 0x80000001#32] })) =
    0#32 := by decide

theorem test_port_dropped_write : (after (step { waiting 3#32 0 1 none with inputs := [.write 0x018#11 5#32] })).status.word =
    0x00000101#32 := by decide

/-! ## Witnesses: the hypotheses of each statement are met together -/

theorem witness_DecodeOfEncodedCommand : WellFormed (.totp (-128) 127) := by decide

theorem witness_EncodeOfDecodedWord : decode 0x80800005#32 = .ok (.totp (-128) (-128)) := rfl

theorem witness_StepRunsDecodedCommand_empty :
    (decoding 3#32 r).rstN = true ∧ decode (decoding 3#32 r).ir = .ok .hotp ∧ (decoding 3#32 r).inputs = [] ∧
    (decoding 3#32 r).phase = .decode := by decide

theorem witness_StepRunsDecodedCommand_request :
    decode ({ decoding 3#32 r with phase := .req } : State).ir = .ok .hotp ∧
    ({ decoding 3#32 r with phase := .req } : State).rstN = true ∧ ({ decoding 3#32 r with phase := .req } : State).inputs = [] := by
  decide

theorem witness_StepRunsDecodedCommand_turn :
    decode (waiting 3#32 0 1 (some digest1)).ir = .ok .hotp ∧
    ({ waiting 3#32 0 1 (some digest1) with inputs := [.turn] } : State).inputs = .turn :: [] ∧
    (waiting 3#32 0 1 (some digest1)).rstN = true ∧ (waiting 3#32 0 1 (some digest1)).phase = .wait ∧
    (waiting 3#32 0 1 (some digest1)).rsp ≠ none := by decide

theorem witness_StepRunsDecodedCommand_deliver :
    decode (waiting 6#32 0 1 none).ir = .ok .verify ∧ (waiting 6#32 0 1 none).rstN = true ∧
    (waiting 6#32 0 1 none).phase = .wait ∧
    ({ waiting 6#32 0 1 none with inputs := [.deliver digest1] } : State).inputs = .deliver digest1 :: [] := by decide

theorem witness_StepRunsDecodedCommand_answer :
    decode (waiting 6#32 0 1 none).ir = .ok .verify ∧ (waiting 6#32 0 1 none).rstN = true ∧
    ({ waiting 6#32 0 1 none with inputs := [.answer], owed := [requestFor r] } : State).owed = requestFor r :: [] ∧
    (waiting 6#32 0 1 none).phase = .wait := by decide

theorem witness_NoEnabledStepKeepsState_idle : r.inputs = [] ∧ r.phase = .idle := by decide

theorem witness_NoEnabledStepKeepsState_wait :
    (waiting 3#32 0 1 none).inputs = [] ∧ (waiting 3#32 0 1 none).phase = .wait ∧ (waiting 3#32 0 1 none).rsp = none := by decide

theorem witness_NoEnabledStepKeepsState_low : ({ r with rstN := false } : State).inputs = [] ∧
    ({ r with rstN := false } : State).rstN = false := by decide

/-- A command in WAIT that the host polls. -/
def Tests.polled : State := { waiting 3#32 0 1 none with inputs := [.read 0x001#11] }

theorem witness_OnlyDeliveryOrResetLeavesWait :
    polled.phase = .wait ∧ polled.rsp = none ∧ polled.status.busy = true ∧ noResetNext polled = true ∧
    (∀ d es, polled.inputs ≠ .deliver d :: es) ∧ (∀ es, polled.inputs ≠ .answer :: es) ∧ ∃ t, step polled = .next t :=
  ⟨rfl, rfl, rfl, by decide, by simp [polled], by simp [polled], _, rfl⟩

/-- The same command with any other event before it that is no record and no reset: each leaves it in WAIT. -/
theorem witness_OnlyDeliveryOrResetLeavesWait_turn :
    noResetNext { polled with inputs := [.turn] } = true ∧ (after (step { polled with inputs := [.turn] })).phase = .wait := by
  decide

theorem witness_AcceptanceOfAnyWord :
    ({ r with inputs := [.write 0x000#11 0xFFFFFFFF#32] } : State).rstN = true ∧
    ({ r with inputs := [.write 0x000#11 0xFFFFFFFF#32] } : State).phase = .idle ∧
    ({ r with inputs := [.write 0x000#11 0xFFFFFFFF#32] } : State).status.busy = false := by decide

/-- The reset state is good, with a word in DECODE too. -/
theorem Tests.inv_decoding (w : Word) : Inv (decoding w r) where
  memWf := rfl
  memMapped := by simp [decoding, accept, State.reset]
  busyIff := by simp [decoding, accept]
  errIff := by simp [decoding, accept]
  busyClear := by simp [decoding, accept]
  digits := (by decide : 6 ≤ r.act.digits.toNat ∧ r.act.digits.toNat ≤ 10)
  stepSeconds := (by decide : 1 ≤ r.act.stepSeconds.toNat ∧ r.act.stepSeconds.toNat ≤ 2 ^ 31 - 1)
  result := .inl rfl
  value := (by decide : r.value.toNat < 2 ^ 31)
  counts := (by decide : r.n ≤ 255 ∧ r.idx ≤ 255)
  running := by simp [decoding, accept]
  rspTaken := rfl
  heldReset := by simp [decoding, accept, State.reset]

theorem witness_CommandEndsByCompletion :
    Inv (decoding 1#32 r) ∧ noResetNext (decoding 1#32 r) = true ∧ (decoding 1#32 r).status.busy = true ∧
    ∃ t, step (decoding 1#32 r) = .next t ∧ t.status.busy = false := ⟨inv_decoding _, by decide, by decide, _, rfl, rfl⟩

theorem witness_IllegalWordEnds_opcode :
    (decoding 0x00000007#32 r).rstN = true ∧ (decoding 0x00000007#32 r).inputs = [] ∧ (decoding 0x00000007#32 r).phase = .decode ∧
    0x07 ≤ (decoding 0x00000007#32 r).ir.toNat % 256 := by decide

theorem witness_IllegalWordEnds_zero : (decoding 0x00000000#32 r).phase = .decode ∧
    (decoding 0x00000000#32 r).ir.toNat % 256 = 0 := by decide

theorem witness_IllegalWordEnds_formatN : (decoding 0x00000106#32 r).phase = .decode ∧
    (decoding 0x00000106#32 r).ir.toNat % 256 = 6 ∧ (decoding 0x00000106#32 r).ir.toNat / 256 ≠ 0 := by decide

theorem witness_IllegalWordEnds_formatW : (decoding 0x00000105#32 r).phase = .decode ∧
    (decoding 0x00000105#32 r).ir.toNat % 256 = 5 ∧ (decoding 0x00000105#32 r).ir.toNat / 256 % 256 ≠ 0 := by decide

theorem witness_SecretTooLongEnds : (decoding 3#32 { r with secretLen := 129#32 }).phase = .decode ∧
    128 < (decoding 3#32 { r with secretLen := 129#32 }).secretLen.toNat := by decide

/-- An error without a clock sample, and one with a sample. -/
theorem witness_ErrorCompletionIsPrecise :
    (decoding 3#32 { r with secretLen := 129#32 }).phase = .decode ∧
    (after (exec .hotp (decoding 3#32 { r with secretLen := 129#32 }))).phase = .idle ∧
    (after (exec .hotp (decoding 3#32 { r with secretLen := 129#32 }))).status.errcode ≠ .none := by decide

/-- One second steps, the clock at its end, the start one second before the epoch: the step is 2^63. -/
def Tests.late : State :=
  decoding 4#32 { clocked 0x7FFFFFFFFFFFFFFF#64 with
    act := { Active.reset with startTime := BitVec.ofInt 64 (-1), stepSeconds := 1#32 } }

theorem witness_ErrorCompletionIsPrecise_range :
    late.phase = .decode ∧ (after (exec .step late)).phase = .idle ∧ (after (exec .step late)).status.errcode = .range := by decide

theorem witness_NoErrorAfterFirstRequest :
    (waiting 3#32 0 1 (some digest1)).phase = .wait ∧ ∃ t, exec .hotp (waiting 3#32 0 1 (some digest1)) = .next t ∧ t.phase = .idle :=
  ⟨rfl, _, rfl, rfl⟩

theorem witness_CommandsKeepOperandsButDigest : ∃ t, exec .init (decoding 1#32 r) = .next t := ⟨_, rfl⟩

theorem witness_OtherCommandsKeepWindow : ∃ t, exec .hotp (waiting 3#32 0 1 (some digest1)) = .next t := ⟨_, rfl⟩

theorem witness_InitMakesStagedActive : (decoding 1#32 r).phase = .decode ∧ ConfigValid (decoding 1#32 r).cfg := by decide

theorem witness_InitRefusesInvalid :
    (decoding 1#32 { r with cfg := { Staged.reset with digits := 11#32 } }).phase = .decode ∧
    ¬ConfigValid (decoding 1#32 { r with cfg := { Staged.reset with digits := 11#32 } }).cfg := by decide

theorem witness_ActiveChangesOnlyByInit_init :
    (after (step (decoding 1#32 { r with cfg := { Staged.reset with digits := 8#32 } }))).act ≠ Active.reset := by decide

theorem witness_ActiveChangesOnlyByInit_reset :
    (after (step { r with act := { Active.reset with digits := 8#4 }, inputs := [.write 0x002#11 0x80000000#32] })).act ≠
      { Active.reset with digits := 8#4 } := by decide

theorem witness_StagedReadOnlyByInit : Instr.hotp ≠ .init ∧ ∃ t, exec .hotp (decoding 3#32 r) = .next t := ⟨by decide, _, rfl⟩

theorem witness_DbcOfDigest : 20 ≤ (bytes 20 0x000102030405060708090a0b0c0d0e0f1011124f).length ∧
    15 = ((bytes 20 0x000102030405060708090a0b0c0d0e0f1011124f).getD
      ((bytes 20 0x000102030405060708090a0b0c0d0e0f1011124f).length - 1) 0#8).toNat % 16 := by decide

theorem witness_CodeFieldIsDecimal : 12 ≤ 12 ∧ 999999999999 < 10 ^ 12 := by decide

theorem witness_TruncResult : (decoding 2#32 r).phase = .decode := by decide

theorem witness_TruncReadsOnlyItsOperands :
    (decoding 2#32 r).phase = .decode ∧ (decoding 2#32 { r with counter := 1#64 }).phase = .decode ∧
    (decoding 2#32 { r with counter := 1#64 }).act = (decoding 2#32 r).act ∧
    (∀ k, k < digestLen (decoding 2#32 r).act.alg →
      (decoding 2#32 { r with counter := 1#64 }).mem.read (0x0C0 + k) = (decoding 2#32 r).mem.read (0x0C0 + k)) ∧
    (∃ t, exec .trunc (decoding 2#32 r) = .next t) ∧ ∃ t, exec .trunc (decoding 2#32 { r with counter := 1#64 }) = .next t :=
  ⟨rfl, rfl, rfl, fun _ _ => rfl, ⟨_, rfl⟩, ⟨_, rfl⟩⟩

theorem witness_CurrentStepIsFloor : (1 : Int) ≤ 2147483647 := by decide

/-- The step at the low end of int64. -/
theorem witness_StepResult :
    (decoding 4#32 { clocked 0x8000000000000000#64 with act := { Active.reset with stepSeconds := 1#32 } }).phase = .decode ∧
    -2 ^ 63 = currentStep (0x8000000000000000#64).toInt 0 1 := by decide

/-- The clock port of the statement: driven, not driven, and about to be driven. -/
theorem witness_StepResult_pin :
    (decoding 4#32 (clocked 0xFFFFFFFFFFFFFFFF#64)).clockPin = some 0xFFFFFFFFFFFFFFFF#64 ∧
    (decoding 4#32 (clocked 0xFFFFFFFFFFFFFFFF#64)).phase = .decode ∧ -1 = currentStep (0xFFFFFFFFFFFFFFFF#64).toInt 0 30 ∧
    r.clockPin = none ∧ ({ r with inputs := [.clock 59#64] } : State).inputs = .clock 59#64 :: [] := by decide

theorem witness_StepOutOfRange : late.phase = .decode ∧
    currentStep (clockNow late).toInt late.act.startTime.toInt late.act.stepSeconds.toNat > 2 ^ 63 - 1 := by decide

theorem witness_StepOutOfRange_low :
    currentStep (0x8000000000000000#64).toInt 1 1 < -2 ^ 63 := by decide

/-- One second steps, the clock at its end, a window of one future step: out of range by 1. -/
def Tests.lateWindow (w : Word) : State :=
  decoding w { clocked 0x7FFFFFFFFFFFFFFF#64 with act := { Active.reset with stepSeconds := 1#32, future := 1#7 } }

theorem witness_WindowOutOfRange_totp :
    (lateWindow 0x01000005#32).phase = .decode ∧ (lateWindow 0x01000005#32).secretLen.toNat ≤ 128 ∧
    2 ^ 63 - 1 < currentStep (clockNow (lateWindow 0x01000005#32)).toInt (lateWindow 0x01000005#32).act.startTime.toInt
      (lateWindow 0x01000005#32).act.stepSeconds.toNat + max (1 : Int) 0 := by decide

theorem witness_WindowOutOfRange_verify :
    2 ^ 63 - 1 < currentStep (clockNow (lateWindow 6#32)).toInt (lateWindow 6#32).act.startTime.toInt
      (lateWindow 6#32).act.stepSeconds.toNat + (lateWindow 6#32).act.future.toNat := by decide

/-- Both windows at the ends of int64: the newest step is 2^63 - 1 with one past step, the oldest is -2^63. -/
def Tests.edgeWindow (w : Word) (t : DWord) (past future : BitVec 7) : State :=
  decoding w { clocked t with act := { Active.reset with stepSeconds := 1#32, past := past, future := future } }

theorem witness_WindowStepsAscend_totp :
    (edgeWindow 0x00010005#32 0x7FFFFFFFFFFFFFFF#64 0#7 0#7).phase = .decode ∧
    (edgeWindow 0x00010005#32 0x7FFFFFFFFFFFFFFF#64 0#7 0#7).secretLen.toNat ≤ 128 ∧
    2 ^ 63 - 1 = currentStep (clockNow (edgeWindow 0x00010005#32 0x7FFFFFFFFFFFFFFF#64 0#7 0#7)).toInt
      (edgeWindow 0x00010005#32 0x7FFFFFFFFFFFFFFF#64 0#7 0#7).act.startTime.toInt
      (edgeWindow 0x00010005#32 0x7FFFFFFFFFFFFFFF#64 0#7 0#7).act.stepSeconds.toNat ∧
    ((1 : Nat) : Int) = max 1 0 ∧ ((0 : Nat) : Int) = max 0 0 ∧
    (-2 ^ 63 : Int) ≤ 2 ^ 63 - 1 - (1 : Nat) ∧ (2 ^ 63 - 1 : Int) + (0 : Nat) ≤ 2 ^ 63 - 1 := by decide

theorem witness_WindowStepsAscend_verify :
    (edgeWindow 6#32 0x8000000000000000#64 0#7 127#7).phase = .decode ∧
    (edgeWindow 6#32 0x8000000000000000#64 0#7 127#7).secretLen.toNat ≤ 128 ∧
    -2 ^ 63 = currentStep (clockNow (edgeWindow 6#32 0x8000000000000000#64 0#7 127#7)).toInt
      (edgeWindow 6#32 0x8000000000000000#64 0#7 127#7).act.startTime.toInt
      (edgeWindow 6#32 0x8000000000000000#64 0#7 127#7).act.stepSeconds.toNat ∧
    (-2 ^ 63 : Int) ≤ -2 ^ 63 - (edgeWindow 6#32 0x8000000000000000#64 0#7 127#7).act.past.toNat ∧
    (-2 ^ 63 : Int) + (edgeWindow 6#32 0x8000000000000000#64 0#7 127#7).act.future.toNat ≤ 2 ^ 63 - 1 := by decide

theorem witness_HotpStarts : (decoding 3#32 { r with secretLen := 128#32 }).phase = .decode ∧
    (decoding 3#32 { r with secretLen := 128#32 }).secretLen.toNat ≤ 128 := by decide

/-- The last window that fits: the step is 2^63 - 1 and there is no future step. -/
theorem witness_TotpStarts :
    (lateWindow 5#32).phase = .decode ∧ (lateWindow 5#32).secretLen.toNat ≤ 128 ∧
    2 ^ 63 - 1 = currentStep (clockNow (lateWindow 5#32)).toInt (lateWindow 5#32).act.startTime.toInt
      (lateWindow 5#32).act.stepSeconds.toNat ∧
    (-2 ^ 63 : Int) ≤ 2 ^ 63 - 1 - max (-1) 0 ∧ (2 ^ 63 - 1 : Int) + max 0 0 ≤ 2 ^ 63 - 1 := by decide

theorem witness_VerifyStarts :
    (decoding 6#32 (clocked 59#64)).phase = .decode ∧ (decoding 6#32 (clocked 59#64)).secretLen.toNat ≤ 128 ∧
    1 = currentStep (clockNow (decoding 6#32 (clocked 59#64))).toInt (decoding 6#32 (clocked 59#64)).act.startTime.toInt
      (decoding 6#32 (clocked 59#64)).act.stepSeconds.toNat ∧
    (-2 ^ 63 : Int) ≤ 1 - (decoding 6#32 (clocked 59#64)).act.past.toNat := by decide

theorem witness_RequestIsIssued : ({ decoding 6#32 r with phase := .req } : State).phase = .req := by decide

theorem witness_NextPositionIsDue :
    (waiting 6#32 253 255 (some digest1)).phase = .wait ∧ (waiting 6#32 253 255 (some digest1)).rsp = some digest1 ∧
    (waiting 6#32 253 255 (some digest1)).idx + 1 < (waiting 6#32 253 255 (some digest1)).n := by decide

theorem witness_HotpFinishes :
    (waiting 3#32 0 1 (some digest1)).phase = .wait ∧ (waiting 3#32 0 1 (some digest1)).rsp = some digest1 ∧
    (waiting 3#32 0 1 (some digest1)).n ≤ (waiting 3#32 0 1 (some digest1)).idx + 1 := by decide

theorem witness_TotpFinishes :
    (waiting 0x7F7F0005#32 254 255 (some digest1)).phase = .wait ∧
    (waiting 0x7F7F0005#32 254 255 (some digest1)).rsp = some digest1 ∧
    (waiting 0x7F7F0005#32 254 255 (some digest1)).n ≤ (waiting 0x7F7F0005#32 254 255 (some digest1)).idx + 1 ∧
    (waiting 0x7F7F0005#32 254 255 (some digest1)).n ≤ 255 := by decide

theorem witness_VerifyFinishes :
    (tied 6#32).phase = .wait ∧ (tied 6#32).rsp = some digest1 ∧ (tied 6#32).n ≤ (tied 6#32).idx + 1 ∧ (tied 6#32).n ≤ 255 := by
  decide

/-- The success clause: before the last record the candidate equals entry 0, the oldest of the tied window. -/
theorem witness_VerifyFinishes_success : CandidateAt (after (exec .verify (tied 6#32))) 0 := by decide +kernel

/-- The invalid clause: a candidate of length 5 equals no entry. -/
theorem witness_VerifyFinishes_invalid : ∀ i, i < 3 → ¬CandidateAt (after (exec .verify (tied 5#32))) i :=
  fun _ _ h => absurd h.1 (by decide)

/-- The words of `Success` at the ends of its range, written out by hand. -/
theorem test_success_word_bounds : IsSuccess 0x00008103#32 (-127) ∧ IsSuccess 0x00007F03#32 127 ∧ IsSuccess 0x00000003#32 0 := by
  have h : resultWord (some (-127)) = 0x00008103#32 ∧ resultWord (some 127) = 0x00007F03#32 ∧
      resultWord (some 0) = 0x00000003#32 := by decide
  exact ⟨h.1 ▸ isSuccess_resultWord _, h.2.1 ▸ isSuccess_resultWord _, h.2.2 ▸ isSuccess_resultWord _⟩

theorem witness_VerifyStepsIgnoreCandidate :
    (∀ a, ¬Within 0x070 12 a → (holding 0x07B [0x31#8]).read a = (waiting 6#32 0 1 (some digest1)).mem.read a) ∧
    ∃ t, exec .verify (waiting 6#32 0 1 (some digest1)) = .next t := by
  refine ⟨fun a h => ?_, _, rfl⟩
  exact Memory.read_writeBytes_of_not _ _ _ _ (by simp only [Within] at h; simp; omega)

theorem witness_HotpCommandCode :
    ({ decoding 3#32 r with inputs := .turn :: exchanges 1 ++ [] } : State).rstN = true ∧ (decoding 3#32 r).phase = .decode ∧
    decode (decoding 3#32 r).ir = .ok .hotp ∧ (decoding 3#32 r).secretLen.toNat ≤ 128 ∧ (decoding 3#32 r).owed = [] := by decide

theorem witness_TotpCommandWindow :
    (decoding 0x01010005#32 (clocked 59#64)).rstN = true ∧ (decoding 0x01010005#32 (clocked 59#64)).phase = .decode ∧
    decode (decoding 0x01010005#32 (clocked 59#64)).ir = .ok (.totp 1 1) ∧
    (decoding 0x01010005#32 (clocked 59#64)).secretLen.toNat ≤ 128 ∧ (decoding 0x01010005#32 (clocked 59#64)).owed = [] ∧
    1 = currentStep (clockNow (decoding 0x01010005#32 (clocked 59#64))).toInt
      (decoding 0x01010005#32 (clocked 59#64)).act.startTime.toInt
      (decoding 0x01010005#32 (clocked 59#64)).act.stepSeconds.toNat ∧
    ((3 : Nat) : Int) = max 1 0 + 1 + max 1 0 := by decide

/-- The code of step 1 with no secret, whatever the HMAC unit's function is. -/
def Tests.emptyKeyCode : Nat := truncateValue ((Config.hmac .sha1 [] (be8 1#64)).toList.take 20) 6

/-- A verification with the candidate given by its bytes and its length; one window position, step 1, no secret. -/
def Tests.verifying (cand : List Byte) (len : Word) : State :=
  { decoding 6#32 (clocked 59#64) with mem := holding 0x070 cand, candLen := len, inputs := .turn :: exchanges 1 ++ [] }

theorem witness_VerifyCommandOutcome (cand : List Byte) (len : Word) :
    (verifying cand len).rstN = true ∧ (verifying cand len).phase = .decode ∧ decode (verifying cand len).ir = .ok .verify ∧
    (verifying cand len).secretLen.toNat ≤ 128 ∧ (verifying cand len).act.digits.toNat ≤ 10 ∧ (verifying cand len).owed = [] ∧
    1 = currentStep (clockNow (verifying cand len)).toInt (verifying cand len).act.startTime.toInt
      (verifying cand len).act.stepSeconds.toNat ∧
    1 = (verifying cand len).act.past.toNat + 1 + (verifying cand len).act.future.toNat ∧
    (verifying cand len).inputs = .turn :: exchanges 1 ++ [] :=
  ⟨rfl, rfl, test_decode_verify, (by decide : r.secretLen.toNat ≤ 128), (by decide : r.act.digits.toNat ≤ 10), rfl,
    (by decide : 1 = currentStep (59#64).toInt r.act.startTime.toInt r.act.stepSeconds.toNat), rfl, rfl⟩

/-- The success clause is met: the candidate is the code of step 1. -/
theorem witness_VerifyCommandOutcome_success :
    CandidateIsCode (verifying (codeFieldOf emptyKeyCode 6) 6#32) 1#64 0 := by
  refine ⟨rfl, fun k hk => ?_⟩
  have hk : k < 6 := hk
  show Memory.read (Memory.writeBytes [] 0x070 (codeFieldOf emptyKeyCode 6)) (0x070 + k) = codeByte emptyKeyCode 6 k
  rw [Memory.read_writeBytes, if_pos (by rw [length_codeFieldOf]; omega), Nat.add_sub_cancel_left,
    getD_codeFieldOf _ _ _ (by omega)]

/-- The invalid clause is met: a candidate of length 5 is no code of 6 digits. -/
theorem witness_VerifyCommandOutcome_invalid : ¬CandidateIsCode (verifying [] 5#32) 1#64 0 :=
  fun h => absurd h.1 (by decide)

theorem witness_ReadByRegion : ({ r with inputs := [.read 0x7FB#11] } : State).rstN = true ∧
    0x1FEC = 4 * (0x7FB#11).toNat := by decide

/-- The ends of the regions of the read statement: a result word, the first and last of it, and their neighbours. -/
theorem witness_ReadByRegion_clauses :
    regAt 0x010#11 = .actAlg ∧ regAt 0x00F#11 = .cfgFuture ∧ regAt 0x017#11 = .actFuture ∧ regAt 0x018#11 = .counterLo ∧
    regAt 0x020#11 = .nowLo ∧ regAt 0x029#11 = .dbc ∧ regAt 0x030#11 = .digest 0x0C0 ∧ regAt 0x03F#11 = .digest 0x0FC ∧
    regAt 0x040#11 = .secret 0x100 ∧ regAt 0x400#11 = .win 0x1000 ∧ regAt 0x7FB#11 = .win 0x1FEC ∧ regAt 0x7FC#11 = .reserved := by
  decide

theorem witness_WriteByRegion : ({ r with inputs := [.write 0x05F#11 1#32] } : State).rstN = true ∧
    0x17C = 4 * (0x05F#11).toNat := by decide

/-- The ends of the regions of the write statement. -/
theorem witness_WriteByRegion_clauses :
    regAt 0x000#11 = .cmd ∧ regAt 0x008#11 = .cfgAlg ∧ regAt 0x00B#11 = .reserved ∧ regAt 0x00F#11 = .cfgFuture ∧
    regAt 0x018#11 = .counterLo ∧ regAt 0x01E#11 = .cand 0x078 ∧ regAt 0x01F#11 = .reserved ∧ regAt 0x05F#11 = .secret 0x17C ∧
    regAt 0x060#11 = .reserved ∧ regAt 0x001#11 = .status ∧ regAt 0x002#11 = .ctrl := by decide

theorem witness_OperandsFrozenWhileBusy :
    polled.status.busy = true ∧ noResetNext polled = true ∧ ∃ t, step polled = .next t := ⟨rfl, by decide, _, rfl⟩

/-- The clause of `ACT_*` and the two cases of the clause of `DIGEST`. -/
theorem witness_OperandsFrozenWhileBusy_clauses :
    ¬(polled.phase = .decode ∧ decode polled.ir = .ok .init) ∧ (decoding 2#32 r).status.busy = true ∧
    noResetNext (decoding 2#32 r) = true ∧ decode (decoding 2#32 r).ir = .ok .trunc ∧ (decoding 6#32 r).status.busy = true ∧
    (decoding 6#32 r).phase ≠ .wait := by decide

theorem witness_SecretIsNotReadable :
    ∀ a, ¬(0x100 ≤ a ∧ a ≤ 0x17F) → (holding 0x100 [0x31#8]).read a = r.mem.read a := by
  intro a h
  exact Memory.read_writeBytes_of_not _ _ _ _ (by simp; omega)

theorem witness_LateDeliveryDiscarded :
    ({ r with inputs := [.deliver digest1] } : State).phase = .idle ∧
    ({ decoding 3#32 r with inputs := [.deliver digest1] } : State).phase = .decode := by decide

theorem witness_SoftResetInAnyPhase :
    ({ polled with inputs := [.write 0x002#11 0x80000001#32] } : State).rstN = true ∧ (0x80000001#32).getLsbD 31 = true := by decide

theorem witness_HeldInReset_low :
    ({ r with rstN := false } : State).rstN = false ∧ ({ r with rstN := false } : State) = resetAction { r with rstN := false } ∧
    ∃ t, step { r with rstN := false } = .next t := ⟨rfl, rfl, _, rfl⟩

theorem witness_HeldInReset_events :
    ({ polled with inputs := [.rstn false] } : State).inputs = .rstn false :: [] ∧
    ({ r with rstN := false, inputs := [.rstn true] } : State).rstN = false := by decide

theorem witness_StepKeepsGoodState : Inv (decoding 3#32 r) ∧ ∃ t, step (decoding 3#32 r) = .next t := ⟨inv_decoding _, _, rfl⟩
end

section
/-! PROOFS. The values of the reset state (10_state.md R62): most items are fields of `State.reset`; the packed words, the byte
memory and `irq` are functions of fields and have a lemma each. -/

namespace Sys2Proof.Machine

/-- `STATUS` packs four clear bits and error code 0 (R21). -/
theorem Status.word_reset : Status.reset.word = 0x00000000#32 := by decide

/-- `CTRL` shows nothing but the interrupt enable, which is clear (R22). -/
theorem regWord_ctrl_of_ie_false {s : State} (h : s.ie = false) : regWord s .ctrl = 0x00000000#32 := by
  simp [regWord, ctrlWord, h]

/-- Without the interrupt enable the output `irq` is low, whatever `STATUS` is (R210). -/
theorem irq_of_ie_false {s : State} (h : s.ie = false) : irq s = false := by
  simp [irq, h]

/-- The reset memory lists no byte, so every address of every buffer and of the window reads zero (R62). -/
theorem State.read_mem_reset (a : Nat) : State.reset.mem.read a = 0x00#8 := rfl

/-- Settles O56: the stored items are the fields of `State.reset`, `ID` and `CAP` are constants, and the derived items follow
from the lemmas above. -/
theorem resetValues : Obligations.ResetValues := by
  have ie_reset : State.reset.ie = false := rfl
  unfold Obligations.ResetValues
  refine ⟨?phase, ?ir, ?idx, ?n, ?msg0, ?status, ?ctrl, ?result, ?id, ?cap, ?cfg, ?act, ?counter, ?secretLen, ?candLen, ?mem,
    ?now, ?stepReg, ?value, ?dbc, ?wcount, ?irq⟩
  case status => exact Status.word_reset
  case ctrl => exact regWord_ctrl_of_ie_false ie_reset
  case mem => exact State.read_mem_reset
  case irq => exact irq_of_ie_false ie_reset
  all_goals rfl

end Sys2Proof.Machine
end

section
/-! PROOFS. The byte lanes of a port word, read and written (20_memory.md R78). -/

namespace Sys2Proof.Machine

/-- The lanes of a word put together from four bytes are the bytes, the last of them lowest (R78): lane `j` lies above
the `j` bytes that come after it. -/
theorem lane_append (b3 b2 b1 b0 : Byte) :
    lane (b3 ++ b2 ++ b1 ++ b0) 0 = b0 ∧ lane (b3 ++ b2 ++ b1 ++ b0) 1 = b1 ∧
    lane (b3 ++ b2 ++ b1 ++ b0) 2 = b2 ∧ lane (b3 ++ b2 ++ b1 ++ b0) 3 = b3 :=
  have lane0 {n : Nat} (x : BitVec n) (b : Byte) : (x ++ b).extractLsb' 0 8 = b := BitVec.extractLsb'_append_eq_right
  have above {n k : Nat} (x : BitVec n) (b : Byte) : (x ++ b).extractLsb' (k + 8) 8 = x.extractLsb' k 8 :=
    BitVec.extractLsb'_append_eq_of_le (Nat.le_add_left 8 k)
  ⟨lane0 _ b0, (above _ b0).trans (lane0 _ b1), (above _ b0).trans ((above _ b1).trans (lane0 _ b2)),
    (above _ b0).trans ((above _ b1).trans BitVec.extractLsb'_append_eq_left)⟩

/-- Lane `j` of the word at an address is the byte `j` above it. -/
theorem Memory.lane_readWord (m : Memory) (a j : Nat) (hj : j < 4) : lane (m.readWord a) j = m.read (a + j) := by
  obtain ⟨lane0, lane1, lane2, lane3⟩ := lane_append (m.read (a + 3)) (m.read (a + 2)) (m.read (a + 1)) (m.read a)
  match j, hj with
  | 0, _ => exact lane0
  | 1, _ => exact lane1
  | 2, _ => exact lane2
  | 3, _ => exact lane3

/-- Byte `j` of a buffer is lane `j mod 4` of the buffer's word `j div 4`. -/
theorem Memory.read_eq_lane (m : Memory) (base j : Nat) :
    m.read (base + j) = lane (m.readWord (base + 4 * (j / 4))) (j % 4) := by
  rw [Memory.lane_readWord m _ _ (Nat.mod_lt j (by decide)), Nat.add_assoc, Nat.div_add_mod]

theorem getD_wordBytes (v : Word) (j : Nat) (hj : j < 4) : (wordBytes v).getD j 0#8 = lane v j := by
  match j, hj with
  | 0, _ | 1, _ | 2, _ | 3, _ => rfl

/-- Writing a word puts its lane `j` into the byte `j` above the address. -/
theorem Memory.read_writeWord (m : Memory) (a : Nat) (v : Word) (j : Nat) (hj : j < 4) :
    (m.writeWord a v).read (a + j) = lane v j := by
  rw [Memory.writeWord, Memory.read_writeBytes, if_pos ⟨by omega, by simp; omega⟩, Nat.add_sub_cancel_left,
    getD_wordBytes v j hj]

/-- Writing a word changes its four bytes alone. -/
theorem Memory.sameOutside_writeWord (m : Memory) (a : Nat) (v : Word) : SameOutside m (m.writeWord a v) a 4 :=
  fun b hb => Memory.read_writeBytes_of_not (wordBytes v) m a b hb

/-- A word written reads back: its bytes are its lanes, and those make the word. -/
theorem Memory.readWord_writeWord (m : Memory) (a : Nat) (v : Word) : (m.writeWord a v).readWord a = v := by
  have byte := Memory.read_writeWord m a v
  calc (m.writeWord a v).readWord a
      = lane v 3 ++ lane v 2 ++ lane v 1 ++ lane v 0 := by
        rw [Memory.readWord, byte 3 (by decide), byte 2 (by decide), byte 1 (by decide),
          show (m.writeWord a v).read a = lane v 0 from byte 0 (by decide)]
    _ = v := lanes_append v

/-- The four bytes read from the address of a word just written are the word's bytes. -/
theorem Memory.readBytes_writeWord (m : Memory) (a : Nat) (v : Word) : (m.writeWord a v).readBytes a 4 = wordBytes v :=
  show _ = (List.range 4).map (lane v) from
    List.map_congr_left fun j hj => Memory.read_writeWord m a v j (List.mem_range.mp hj)

/-- Settles O48: reads by `Memory.read_eq_lane`, writes by the laws of `Memory.writeWord`, and the rule's example by the lanes
of its word. -/
theorem byteLanes : Obligations.ByteLanes := by
  unfold Obligations.ByteLanes
  refine ⟨?reads, fun m a v => ⟨?readBack, ?bytes, ?frame⟩, ?ruleExample⟩
  case reads => exact Memory.read_eq_lane
  case readBack => exact Memory.readWord_writeWord m a v
  case bytes => exact Memory.read_writeWord m a v
  case frame => exact Memory.sameOutside_writeWord m a v
  case ruleExample =>
    rw [Memory.readBytes_writeWord]
    decide

end Sys2Proof.Machine
end

section
/-! PROOFS. The words of the commands (30_encoding.md R113 to R118): a word decodes to a command exactly when the command is
well-formed and the word is its assembly, so the patterns of the rules are read off `encode`. -/

namespace Sys2Proof

/-- A word with must-be-zero field zero is its opcode (format N, R111). -/
theorem formatN_fields (w : Word) {op : Nat} (h : w.toNat % 256 = op ∧ w.toNat / 256 = 0) : BitVec.ofNat 32 op = w := by
  obtain ⟨rfl, hmbz⟩ := h
  rw [← BitVec.toNat_inj, BitVec.toNat_ofNat]
  omega

/-- The format W fields make the word again when `OPCODE` is 5 and the must-be-zero field is zero (R111). -/
theorem formatW_fields (w : Word) (hop : w.toNat % 256 = 5) (hmbz : w.toNat / 256 % 256 = 0) :
    w.extractLsb' 24 8 ++ w.extractLsb' 16 8 ++ 0x0005#16 = w := by
  have low : 0x0005#16 = w.extractLsb' 0 16 := by
    rw [← BitVec.toNat_inj, BitVec.extractLsb'_toNat, Nat.shiftRight_zero, BitVec.toNat_ofNat]
    omega
  rw [low, BitVec.extractLsb'_append_extractLsb'_eq_extractLsb' (show 24 = 16 + 8 from rfl),
    BitVec.extractLsb'_append_extractLsb'_eq_extractLsb' (show 16 = 0 + 16 from rfl), BitVec.extractLsb'_eq_self]

/-- A signed byte is an integer in the range of an immediate (R119). -/
theorem imm8_toInt (b : BitVec 8) : Imm8 b.toInt := ⟨b.le_toInt, BitVec.toInt_le⟩

theorem wellFormed_totp_iff (past future : Int) : WellFormed (.totp past future) ↔ Imm8 past ∧ Imm8 future := by
  simp [WellFormed, wellFormed]

/-- A format W word with opcode 5 decodes to `TOTP` with its two signed bytes (R117, R119). -/
theorem decode_formatW (f p : BitVec 8) : decode (f ++ p ++ 0x0005#16) = .ok (.totp p.toInt f.toInt) := by
  have number := toNat_formatW f p
  have hop : (f ++ p ++ 0x0005#16).toNat % 256 = 5 := by omega
  have hmbz : (f ++ p ++ 0x0005#16).toNat / 256 % 256 = 0 := by omega
  have past : pastField (f ++ p ++ 0x0005#16) = p.toInt := congrArg BitVec.toInt <|
    (BitVec.extractLsb'_append_eq_of_le (by decide)).trans BitVec.extractLsb'_append_eq_right
  have future : futureField (f ++ p ++ 0x0005#16) = f.toInt := congrArg BitVec.toInt <|
    (BitVec.extractLsb'_append_eq_of_le (by decide)).trans BitVec.extractLsb'_append_eq_left
  rw [decode_eq]
  simp [hop, hmbz, past, future]

/-- Assembly is undone by the decoder (R123). -/
theorem decode_encode (i : Instr) (h : WellFormed i) : decode (encode i) = .ok i := by
  cases i with
  | totp past future =>
    obtain ⟨hpast, hfuture⟩ := (wellFormed_totp_iff past future).1 h
    rw [encode, decode_formatW, toInt_ofInt_imm8 past hpast, toInt_ofInt_imm8 future hfuture]
  | init | trunc | hotp | step | verify => rfl

/-- A legal word is the assembly of a well-formed command: the one it decodes to (R119, R121). -/
theorem wellFormed_and_encode_of_decode {w : Word} {i : Instr} (h : decode w = .ok i) : WellFormed i ∧ encode i = w := by
  rw [decode_eq] at h
  split_ifs at h with hinit htrunc hhotp hstep htotp hverify
  all_goals cases h
  · exact ⟨rfl, formatN_fields w hinit⟩
  · exact ⟨rfl, formatN_fields w htrunc⟩
  · exact ⟨rfl, formatN_fields w hhotp⟩
  · exact ⟨rfl, formatN_fields w hstep⟩
  · obtain ⟨hop, hmbz⟩ := htotp
    refine ⟨(wellFormed_totp_iff _ _).2 ⟨imm8_toInt _, imm8_toInt _⟩, ?_⟩
    rw [encode, pastField, futureField, BitVec.ofInt_toInt, BitVec.ofInt_toInt]
    exact formatW_fields w hop hmbz
  · exact ⟨rfl, formatN_fields w hverify⟩

/-- A well-formed command has one word, its assembly. -/
theorem decode_eq_ok_iff (w : Word) {i : Instr} (hi : WellFormed i) : decode w = .ok i ↔ w = encode i := by
  constructor
  · intro h
    exact (wellFormed_and_encode_of_decode h).2.symm
  · rintro rfl
    exact decode_encode i hi

/-- Settles O3: each of the five commands is well-formed and has one word, its assembly, which is the rule's pattern. -/
theorem singleWordCommands : Obligations.SingleWordCommands := by
  unfold Obligations.SingleWordCommands
  intro w
  refine ⟨?init, ?trunc, ?hotp, ?step, ?verify⟩
  case init => exact decode_eq_ok_iff w (i := .init) rfl
  case trunc => exact decode_eq_ok_iff w (i := .trunc) rfl
  case hotp => exact decode_eq_ok_iff w (i := .hotp) rfl
  case step => exact decode_eq_ok_iff w (i := .step) rfl
  case verify => exact decode_eq_ok_iff w (i := .verify) rfl

/-- R117: a word is a `TOTP` word exactly when it is a format W word with opcode 5, its immediates the signed bytes. -/
theorem decode_eq_totp_iff (w : Word) (past future : Int) : decode w = .ok (.totp past future) ↔
    ∃ f p : BitVec 8, w = f ++ p ++ 0x0005#16 ∧ past = p.toInt ∧ future = f.toInt := by
  constructor
  · intro h
    obtain ⟨hwf, hw⟩ := wellFormed_and_encode_of_decode h
    obtain ⟨hpast, hfuture⟩ := (wellFormed_totp_iff past future).1 hwf
    exact ⟨BitVec.ofInt 8 future, BitVec.ofInt 8 past, hw.symm, (toInt_ofInt_imm8 past hpast).symm,
      (toInt_ofInt_imm8 future hfuture).symm⟩
  · rintro ⟨f, p, rfl, rfl, rfl⟩
    exact decode_formatW f p

/-- Settles O4: the words by `decode_eq_totp_iff`; the rule's examples are the assembly computed. -/
theorem totpWords : Obligations.TotpWords := by
  unfold Obligations.TotpWords
  refine ⟨?words, ?ruleExamples⟩
  case words => exact decode_eq_totp_iff
  case ruleExamples => decide

end Sys2Proof
end

section
/-! PROOFS. A host write as a step, and the acceptance of a command word (20_memory.md R73, 30_encoding.md R125). -/

namespace Sys2Proof.Machine

/-- With the reset pin high a listed host write is the next step (R73, R81). -/
theorem step_write {s : State} {w : BitVec 11} {v : Word} {es : List Event} (hr : s.rstN = true)
    (hi : s.inputs = .write w v :: es) : step s = .next (hostWrite w v { s with inputs := es }) := by
  have hfetch : fetch s = (hostWrite w v { s with inputs := es }, none) := by
    simp only [fetch, hi, perform, served, if_pos hr]
  rw [step, hfetch]

/-- A write of `CMD` while no command runs is the acceptance of the word, whatever the word is (R73, R125). -/
theorem hostWrite_cmd (v : Word) (s : State) (hb : s.status.busy = false) : hostWrite 0x000#11 v s = accept v s := by
  have hcmd : regAt 0x000#11 = .cmd := by decide
  simp [hostWrite, hb, hcmd, storeReg]

/-- Acceptance lowers `irq`, for it clears `DONE` (R125, R210). -/
theorem irq_accept (v : Word) (s : State) : irq (accept v s) = false := by
  simp [irq]

/-- Settles O11: the step is the write, the write is the acceptance, and `accept` sets the fields of R125. -/
theorem acceptanceOfAnyWord : Obligations.AcceptanceOfAnyWord := by
  unfold Obligations.AcceptanceOfAnyWord
  intro s w es hr _ hb hi
  refine ⟨accept w { s with inputs := es }, ?step, irq_accept w _, ?fields⟩
  case step => rw [step_write hr hi, hostWrite_cmd w { s with inputs := es } hb]
  case fields => rfl

end Sys2Proof.Machine
end

section
/-! PROOFS. The byte sequences of the truncation family (40_truncation.md R141, R142, R144): `BE8`, `Dbc` and `CodeField`. -/

namespace Sys2Proof.Machine

/-! ## BE8 (R141) -/

/-- Byte `j` of `BE8(c)` is `(c >> (8 * (7 - j))) & 0xFF`. -/
theorem toNat_getD_be8 (c : DWord) (j : Nat) (hj : j < 8) :
    ((be8 c).getD j 0#8).toNat = c.toNat / 2 ^ (8 * (7 - j)) % 256 := by
  have byte : (be8 c).getD j 0#8 = c.extractLsb' (8 * (7 - j)) 8 := by
    simp [be8, List.getElem?_range hj]
  rw [byte, BitVec.extractLsb'_toNat, Nat.shiftRight_eq_div_pow]

/-- Settles O32: the bytes by `toNat_getD_be8`; the rule's examples are computed. -/
theorem bigEndianCounter : Obligations.BigEndianCounter := by
  unfold Obligations.BigEndianCounter
  refine ⟨fun c => ⟨length_be8 c, ?bytes⟩, ?ruleExamples⟩
  case bytes => exact toNat_getD_be8 c
  case ruleExamples => decide

/-! ## Dbc (R142) -/

theorem truncOffset_eq_mod (h : List Byte) : truncOffset h = (h.getD (h.length - 1) 0#8).toNat % 16 := by
  rw [truncOffset, BitVec.toNat_and]
  exact Nat.and_two_pow_sub_one_eq_mod _ 4

theorem truncOffset_lt (h : List Byte) : truncOffset h < 16 :=
  truncOffset_eq_mod h ▸ Nat.mod_lt _ (by decide)

/-- `Dbc` is the big-endian value of the four bytes at the offset with bit 31 cleared. -/
theorem toNat_dbcOf (h : List Byte) :
    (dbcOf h).toNat = ((h.getD (truncOffset h) 0#8).toNat * 2 ^ 24 + (h.getD (truncOffset h + 1) 0#8).toNat * 2 ^ 16 +
      (h.getD (truncOffset h + 2) 0#8).toNat * 2 ^ 8 + (h.getD (truncOffset h + 3) 0#8).toNat) % 2 ^ 31 := by
  rw [dbcOf, BitVec.toNat_setWidth, truncWindow, toNat_append_eq, toNat_append_eq, toNat_append_eq]
  omega

/-- Settles O24: the offset is a nibble, so the bytes read end at 15 + 3, and their value is `toNat_dbcOf`. -/
theorem dbcOfDigest : Obligations.DbcOfDigest := by
  unfold Obligations.DbcOfDigest
  refine ⟨?dbc, ?lengths⟩
  case dbc =>
    intro h _ off hoff
    obtain rfl : off = truncOffset h := hoff.trans (truncOffset_eq_mod h).symm
    have nibble := truncOffset_lt h
    exact ⟨by omega, toNat_dbcOf h⟩
  case lengths => decide

/-! ## CodeField (R144) -/

@[simp] theorem length_formatCode (v d : Nat) : (formatCode v d).length = d := by simp [formatCode]

/-- The ASCII byte of a decimal digit. -/
def digitByte (n : Nat) : Byte := BitVec.ofNat 8 (0x30 + n % 10)

theorem toNat_digitByte_sub (n : Nat) : (digitByte n).toNat - 0x30 = n % 10 := by
  rw [digitByte, BitVec.toNat_ofNat]
  omega

/-- `Format` with one more digit: the digits of `v / 10`, then the last digit of `v`. -/
theorem formatCode_succ (v d : Nat) : formatCode v (d + 1) = formatCode (v / 10) d ++ [digitByte v] := by
  have place : ∀ k ∈ List.range d, v / 10 ^ (d + 1 - 1 - k) = v / 10 / 10 ^ (d - 1 - k) := by
    intro k hmem
    have hk : k < d := List.mem_range.mp hmem
    rw [Nat.div_div_eq_div_mul, ← Nat.pow_succ', show d + 1 - 1 - k = d - 1 - k + 1 by omega]
  rw [formatCode, formatCode, List.range_succ, List.map_append]
  congr 1
  · exact List.map_congr_left fun k hk => congrArg digitByte (place k hk)
  · simp [digitByte]

/-- The number an ASCII digit string denotes, read most significant digit first. -/
def readCode (l : List Byte) : Nat := l.foldl (fun acc b => acc * 10 + (b.toNat - 0x30)) 0

theorem readCode_concat (l : List Byte) (b : Byte) : readCode (l ++ [b]) = readCode l * 10 + (b.toNat - 0x30) := by
  simp [readCode]

/-- Reading the digits of `Format(V, d)` back gives `V`. -/
theorem readCode_formatCode (v d : Nat) (hv : v < 10 ^ d) : readCode (formatCode v d) = v := by
  induction d generalizing v with
  | zero => exact (Nat.lt_one_iff.mp hv).symm
  | succ d ih =>
    have hdiv : v / 10 < 10 ^ d := Nat.div_lt_of_lt_mul (Nat.pow_succ' ▸ hv)
    rw [formatCode_succ, readCode_concat, ih _ hdiv, toNat_digitByte_sub]
    omega

/-- The first `d` bytes of the code field are the formatted code. -/
theorem take_codeFieldOf (v d : Nat) (hd : d ≤ 12) : (codeFieldOf v d).take d = formatCode v d := by
  rw [codeFieldOf, List.take_take, Nat.min_eq_left (show d ≤ Config.codeField from hd), List.take_left' (length_formatCode v d)]

/-- Past the digits the code field reads zero, within its 12 bytes and beyond. -/
theorem getD_codeFieldOf_of_le (v d k : Nat) (hk : d ≤ k) : (codeFieldOf v d).getD k 0#8 = 0#8 := by
  by_cases inside : k < 12
  · rw [getD_codeFieldOf v d k inside, codeByte, if_neg (by omega)]
  · exact List.getD_eq_default _ _ (by rw [length_codeFieldOf]; omega)

/-- Settles O26: the bytes by `getD_codeFieldOf`, and the digits read back by induction on their number
(`readCode_formatCode`). -/
theorem codeFieldIsDecimal : Obligations.CodeFieldIsDecimal := by
  unfold Obligations.CodeFieldIsDecimal
  refine ⟨fun v d hd hv => ⟨length_codeFieldOf v d, ?digits, getD_codeFieldOf_of_le v d, ?readBack⟩, ?ruleExample⟩
  case digits =>
    intro k hk
    rw [getD_codeFieldOf v d k (by omega), codeByte, if_pos hk]
  case readBack =>
    rw [take_codeFieldOf v d hd]
    exact readCode_formatCode v d hv
  case ruleExample => decide

end Sys2Proof.Machine
end

section
/-! PROOFS. Steps of time (42_totp.md R160 to R162): floor division, the clamped number of steps, and the window's steps as
the counters of `TOTP` and `VERIFY`. -/

namespace Sys2Proof.Machine

/-! ## The current step (R160) -/

/-- The current step ends a whole number of steps after the start, not past the sample. -/
theorem currentStep_mul_le (t start stepSec : Int) (h : 1 ≤ stepSec) : currentStep t start stepSec * stepSec ≤ t - start :=
  Int.ediv_mul_le _ (Int.ne_of_gt h)

/-- No larger integer does. -/
theorem le_currentStep (t start stepSec q : Int) (h : 1 ≤ stepSec) (hq : q * stepSec ≤ t - start) :
    q ≤ currentStep t start stepSec :=
  (Int.le_ediv_iff_mul_le h).2 hq

/-- The exact difference of two signed double words needs 65 bits and no more. -/
theorem toInt_sub_toInt_bounds (a b : DWord) : -2 ^ 64 < a.toInt - b.toInt ∧ a.toInt - b.toInt < 2 ^ 64 := by
  have alo := a.le_toInt
  have ahi := a.toInt_lt
  have blo := b.le_toInt
  have bhi := b.toInt_lt
  omega

/-- Settles O29: the quotient is below the difference and is the largest such integer, for a positive step length. -/
theorem currentStepIsFloor : Obligations.CurrentStepIsFloor := by
  unfold Obligations.CurrentStepIsFloor
  refine ⟨fun t start stepSec h => ⟨?below, ?largest⟩, ?beforeStart, ?startLater, fun s => ⟨?operands, ?bounds⟩⟩
  case below => exact currentStep_mul_le t start stepSec h
  case largest => exact fun q => le_currentStep t start stepSec q h
  case beforeStart => decide
  case startLater => decide
  case operands => rfl
  case bounds => exact toInt_sub_toInt_bounds _ _

/-! ## The number of steps (R161) -/

/-- Settles O31: this is the law of `clamp0`. -/
theorem clampIsMax : Obligations.ClampIsMax := by
  unfold Obligations.ClampIsMax
  exact coe_clamp0

/-- The number of steps an immediate stands for is known by its value. -/
theorem eq_clamp0 {p : Nat} {x : Int} (h : (p : Int) = max x 0) : p = clamp0 x :=
  Int.ofNat_inj.mp (h.trans (coe_clamp0 x).symm)

/-! ## The steps of a window (R162) -/

@[simp] theorem length_windowSteps (s : Int) (p f : Nat) : (windowSteps s p f).length = p + 1 + f := by simp [windowSteps]

theorem getElem?_windowSteps (s : Int) {p f i : Nat} (hi : i < p + 1 + f) : (windowSteps s p f)[i]? = some (s - p + i) := by
  simp [windowSteps, List.getElem?_range hi]

/-- The current step stands at position `p`. -/
theorem getElem?_windowSteps_past (s : Int) (p f : Nat) : (windowSteps s p f)[p]? = some s := by
  rw [getElem?_windowSteps s (by omega), Int.sub_add_cancel]

/-- The newest step is the last. -/
theorem getElem?_windowSteps_last (s : Int) (p f : Nat) : (windowSteps s p f)[p + f]? = some (s + f) := by
  rw [getElem?_windowSteps s (by omega)]
  congr 1
  omega

/-- No step comes twice: each position adds its number to the oldest step. -/
theorem nodup_windowSteps (s : Int) (p f : Nat) : (windowSteps s p f).Nodup := by
  refine List.nodup_range.map fun i j (hij : s - p + i = s - p + j) => ?_
  omega

theorem count_windowSteps_self (s : Int) (p f : Nat) : (windowSteps s p f).count s = 1 :=
  List.count_eq_one_of_mem (nodup_windowSteps s p f) (List.mem_of_getElem? (getElem?_windowSteps_past s p f))

/-! ## The window of a command (R166, R177) -/

/-- In DECODE, with a secret that fits, a command that uses the HMAC unit runs its own arm (R126). -/
theorem hmacCommand_decode (windowed : Bool) (start last : State → State) {s : State} (hp : s.phase = .decode)
    (hs : s.secretLen.toNat ≤ 128) : hmacCommand windowed start last s = start s := by
  rw [hmacCommand, hp]
  rcases secretChecked_cases start s with ⟨tooLong, _⟩ | ⟨_, run⟩
  · omega
  · exact run

theorem exec_totp_decode (past future : Int) {s : State} (hp : s.phase = .decode) (hs : s.secretLen.toNat ≤ 128) :
    exec (.totp past future) s = .next (windowArm (clamp0 past) (clamp0 future) s) :=
  congrArg Host.Outcome.next (hmacCommand_decode true _ totpLast hp hs)

theorem exec_verify_decode {s : State} (hp : s.phase = .decode) (hs : s.secretLen.toNat ≤ 128) :
    exec .verify s = .next (windowArm s.act.past.toNat s.act.future.toNat s) :=
  congrArg Host.Outcome.next (hmacCommand_decode true verifyArm verifyLast hp hs)

/-- A window that fits in int64 is started: its arm does not end with `E_RANGE` (R163). -/
theorem windowArm_eq (s : State) {p f : Nat} (oldest : -2 ^ 63 ≤ stepNow s - p) (newest : stepNow s + f ≤ 2 ^ 63 - 1) :
    windowArm p f s = { s with
      now := clockNow s, stepReg := BitVec.ofInt 64 (stepNow s), n := p + 1 + f, idx := 0
      msg0 := BitVec.ofInt 64 (stepNow s - p), phase := .req, draws := s.draws + 1 } := by
  rcases windowArm_cases p f s with ⟨_, run⟩ | ⟨outside, _⟩
  · exact run
  · exact absurd ((windowInI64_iff _ p f).2 ⟨oldest, newest⟩) (Bool.eq_false_iff.1 outside)

/-- The state `t` asks for exactly the steps of the window around `q`: `N` is their number, and position `i` has the 64-bit
pattern of the `i`-th as its counter. -/
def AsksForWindow (q : Int) (p f : Nat) (t : State) : Prop :=
  t.n = p + 1 + f ∧ ∀ i, i < t.n → ∃ x, (windowSteps q p f)[i]? = some x ∧ t.msg0 + BitVec.ofNat 64 i = BitVec.ofInt 64 x

/-- A window that fits in int64 is asked for: the pattern of the oldest step plus `i` is the pattern of the `i`-th step. -/
theorem windowArm_asksForWindow (s : State) {p f : Nat} (oldest : -2 ^ 63 ≤ stepNow s - p)
    (newest : stepNow s + f ≤ 2 ^ 63 - 1) : AsksForWindow (stepNow s) p f (windowArm p f s) := by
  rw [windowArm_eq s oldest newest]
  refine ⟨rfl, fun i hi => ⟨stepNow s - p + i, getElem?_windowSteps _ hi, ?_⟩⟩
  rw [BitVec.ofInt_add, BitVec.ofInt_natCast]

/-- Settles O30: the list by the laws of `windowSteps`, the two commands by the arm they share. -/
theorem windowStepsAscend : Obligations.WindowStepsAscend := by
  unfold Obligations.WindowStepsAscend
  refine ⟨fun s p f => ⟨length_windowSteps s p f, ?ascend, getElem?_windowSteps_past s p f, count_windowSteps_self s p f,
    getElem?_windowSteps_last s p f⟩, fun s q hp hs hq => ?commands⟩
  case ascend => exact fun i hi => getElem?_windowSteps s hi
  case commands =>
    obtain rfl : q = stepNow s := hq
    refine ⟨fun past future p f hpast hfuture oldest newest => ?totp, fun oldest newest => ?verify⟩
    case totp =>
      obtain rfl := eq_clamp0 hpast
      obtain rfl := eq_clamp0 hfuture
      exact ⟨_, exec_totp_decode past future hp hs, windowArm_asksForWindow s oldest newest⟩
    case verify => exact ⟨_, exec_verify_decode hp hs, windowArm_asksForWindow s oldest newest⟩

end Sys2Proof.Machine
end

section
/-! PROOFS. The validity of a staged configuration (44_config.md R185): the word of `CFG_ALG` names an algorithm, and the other
words are in range. -/

namespace Sys2Proof.Machine

/-- The codes of the algorithms are 0, 1 and 2, compared on all 32 bits (R27). -/
theorem exists_algCode_eq_iff (w : Word) : (∃ a, algCode a = w) ↔ w.toNat = 0 ∨ w.toNat = 1 ∨ w.toNat = 2 := by
  constructor
  · rintro ⟨a, rfl⟩
    cases a <;> decide
  · rintro (code | code | code)
    · exact ⟨.sha1, BitVec.eq_of_toNat_eq code.symm⟩
    · exact ⟨.sha256, BitVec.eq_of_toNat_eq code.symm⟩
    · exact ⟨.sha512, BitVec.eq_of_toNat_eq code.symm⟩

/-- `INIT` can construct a generator exactly when `CFG_ALG` names an algorithm and the other staged words are in range. -/
theorem configValid_iff (c : Staged) : ConfigValid c ↔ (∃ a, algCode a = c.alg) ∧ stagedInRange c = true := by
  rw [ConfigValid, Option.isSome_iff_exists]
  constructor
  · rintro ⟨active, made⟩
    obtain ⟨inRange, named, _⟩ := (construct_eq_some_iff c active).1 made
    exact ⟨⟨active.alg, named⟩, inRange⟩
  · rintro ⟨⟨a, named⟩, inRange⟩
    exact ⟨⟨a, _, _, _, _, _⟩, (construct_eq_some_iff c _).2 ⟨inRange, named, rfl, rfl, rfl, rfl, rfl⟩⟩

/-- Settles O19: the test on `CFG_ALG` by the algorithms' codes, the others by `stagedInRange_iff`. -/
theorem configValidTests : Obligations.ConfigValidTests := by
  unfold Obligations.ConfigValidTests
  intro c
  rw [configValid_iff, exists_algCode_eq_iff, stagedInRange_iff]

end Sys2Proof.Machine
end

section
/-! PROOFS. The interrupt output is seen in the words at the port (60_exceptions.md R210): `CTRL` and `STATUS` are packed from
the top bit down, so the bits of interest are the last ones appended. -/

namespace Sys2Proof.Machine

/-- Bit 0 of `CTRL`, the last bit of the word, is the interrupt enable (R22). -/
@[simp] theorem getLsbD_ctrlWord_zero (s : State) : (ctrlWord s).getLsbD 0 = s.ie :=
  BitVec.getLsbD_concat_zero

/-- Bit 1 of `STATUS` is `DONE`, which lies just above the last bit, `BUSY` (R21). -/
@[simp] theorem Status.getLsbD_word_one (t : Status) : t.word.getLsbD 1 = t.done :=
  BitVec.getLsbD_concat_succ.trans BitVec.getLsbD_concat_zero

/-- Settles O54: the two bits of the port words are the fields whose conjunction `irq` is. -/
theorem irqIsDoneAndEnabled : Obligations.IrqIsDoneAndEnabled := by
  unfold Obligations.IrqIsDoneAndEnabled
  intro s
  rw [regWord, regWord, getLsbD_ctrlWord_zero, Status.getLsbD_word_one, irq]

end Sys2Proof.Machine
end

section
/-! PROOFS. Assembly and decoding of every command and of every word (30_encoding.md R120, R121, R123). -/

namespace Sys2Proof

/-- Settles O1: this is `decode_encode`. -/
theorem decodeOfEncodedCommand : Obligations.DecodeOfEncodedCommand := by
  unfold Obligations.DecodeOfEncodedCommand
  exact decode_encode

/-- Settles O2: this is `wellFormed_and_encode_of_decode`. -/
theorem encodeOfDecodedWord : Obligations.EncodeOfDecodedWord := by
  unfold Obligations.EncodeOfDecodedWord
  exact fun _ _ => wellFormed_and_encode_of_decode

/-- The three clauses of R120, on the number of the word. -/
def IllegalNumber (n : Nat) : Prop :=
  (n % 256 = 0 ∨ 0x07 ≤ n % 256) ∨
    ((n % 256 = 1 ∨ n % 256 = 2 ∨ n % 256 = 3 ∨ n % 256 = 4 ∨ n % 256 = 6) ∧ n / 256 ≠ 0) ∨
    (n % 256 = 5 ∧ n / 256 % 256 ≠ 0)

/-- The decoder rejects exactly the words of the three clauses: a branch of `decode_eq` that answers a command excludes them
all, and with every such branch excluded one of them is left. -/
theorem decode_eq_error_iff (w : Word) : (∃ e, decode w = .error e) ↔ IllegalNumber w.toNat := by
  rw [decode_eq]
  split_ifs
  -- the branches that answer a command
  iterate 6
    · have legal : ¬IllegalNumber w.toNat := by unfold IllegalNumber; omega
      simp [legal]
  -- the branches that answer an error
  all_goals
    have illegal : IllegalNumber w.toNat := by unfold IllegalNumber; omega
    simp [illegal]

/-- Settles O5: this is `decode_eq_error_iff`. -/
theorem illegalWordsRejected : Obligations.IllegalWordsRejected := by
  unfold Obligations.IllegalWordsRejected
  exact decode_eq_error_iff

/-- Settles O6: the decoder computes on each of the words. -/
theorem writtenWordsDecode : Obligations.WrittenWordsDecode := by
  unfold Obligations.WrittenWordsDecode
  decide

end Sys2Proof
end

section
/-! PROOFS. Which step comes next (20_memory.md R81, 30_encoding.md R126 to R131): the sequencer's turn, what the agents do, and
`exec` of the command in `IR`. -/

namespace Sys2Proof.Machine

/-- The sequencer has a step to take, with the reset pin high (R56, R95). -/
abbrev Enabled (s : State) : Prop := s.phase = .decode ∨ s.phase = .req ∨ (s.phase = .wait ∧ s.rsp ≠ none)

/-- A step that is no command's is the state the agent leaves. -/
theorem step_of_fetch_none {s t : State} (h : fetch s = (t, none)) : step s = .next t := by
  rw [step, h]

/-- With nothing listed it is the sequencer's turn (R131). -/
theorem fetch_of_no_inputs {s : State} (hi : s.inputs = []) : fetch s = engineTurn s := by
  rw [fetch, hi]

/-- A listed event is the next agent's step (R81). -/
theorem fetch_of_event {s : State} {e : Event} {es : List Event} (hi : s.inputs = e :: es) :
    fetch s = perform e { s with inputs := es } := by
  rw [fetch, hi]

/-! ## The sequencer's turn -/

/-- With an enabled step and a legal word in `IR` the sequencer runs the command (R126 to R129). -/
theorem engineTurn_of_enabled {s : State} {i : Instr} (hr : s.rstN = true) (hd : decode s.ir = .ok i) (hp : Enabled s) :
    engineTurn s = (s, some i) := by
  rcases hp with decoding | requesting | ⟨waiting, presented⟩
  · simp [engineTurn, hr, decoding, decodeTurn, hd]
  · simp [engineTurn, hr, requesting, running, hd]
  · simp [engineTurn, hr, waiting, presented, running, hd]

/-- In DECODE an illegal word ends with `E_ILLEGAL` (R126 step 1). -/
theorem engineTurn_of_illegal {s : State} {e : Illegal} (hr : s.rstN = true) (hp : s.phase = .decode)
    (hd : decode s.ir = .error e) : engineTurn s = (errorEnd .illegal 0 s, none) := by
  simp [engineTurn, hr, hp, decodeTurn, hd, raise_eq]

/-- With no enabled step the turn leaves the state as it is (R56, R95, R230). -/
theorem engineTurn_of_stuck {s : State} (h : s.phase = .idle ∨ (s.phase = .wait ∧ s.rsp = none) ∨ s.rstN = false) :
    engineTurn s = (s, none) := by
  rcases h with idle | ⟨waiting, absent⟩ | low
  · simp [engineTurn, idle]
  · simp [engineTurn, waiting, absent]
  · simp [engineTurn, low]

/-- A listed turn with an enabled step runs the command. -/
theorem step_turn {s : State} {i : Instr} {es : List Event} (hr : s.rstN = true) (hd : decode s.ir = .ok i)
    (hi : s.inputs = .turn :: es) (hp : Enabled s) : step s = exec i { s with inputs := es } := by
  rw [step, fetch_of_event hi, perform, engineTurn_of_enabled (s := { s with inputs := es }) hr hd hp]

/-! ## Deliveries -/

/-- In WAIT a delivered record is presented to the sequencer, which runs the command (R92, R129). -/
theorem delivery_of_wait {s : State} {i : Instr} (d : Digest) (hr : s.rstN = true) (hd : decode s.ir = .ok i)
    (hp : s.phase = .wait) : delivery d s = ({ s with owed := s.owed.tail, rsp := some d }, some i) := by
  rw [delivery, if_pos ⟨hr, hp⟩]
  exact engineTurn_of_enabled (s := { s with owed := s.owed.tail, rsp := some d }) hr hd (.inr (.inr ⟨hp, by simp⟩))

/-- Outside WAIT a delivered record is discarded (R97). -/
theorem delivery_of_not_wait {s : State} (d : Digest) (hp : s.phase ≠ .wait) :
    delivery d s = ({ s with owed := s.owed.tail }, none) := by
  rw [delivery, if_neg fun h => hp h.2]

/-- Settles O7: the sequencer's turn by `engineTurn_of_enabled`, a delivery by `delivery_of_wait`; an answer is a delivery. -/
theorem stepRunsDecodedCommand : Obligations.StepRunsDecodedCommand := by
  unfold Obligations.StepRunsDecodedCommand
  intro s i hr hd
  refine ⟨fun hi hp => ?own, fun es hi hp => step_turn hr hd hi hp, fun d es hi hp => ?delivered,
    fun r rs es hi ho hp => ?answered⟩
  case own => rw [step, fetch_of_no_inputs hi, engineTurn_of_enabled hr hd hp]
  case delivered => rw [step, fetch_of_event hi, perform, delivery_of_wait (s := { s with inputs := es }) d hr hd hp]
  case answered =>
    have answers : answer { s with inputs := es } =
        delivery (Config.hmac r.alg r.key r.msg) { s with inputs := es } := by
      simp only [answer, ho]
    rw [step, fetch_of_event hi, perform, answers, delivery_of_wait (s := { s with inputs := es }) _ hr hd hp, ho]
    rfl

/-- Settles O8: an agent's step answers a state, and so does `exec` (`exec_next`). -/
theorem everyStepAnswers : Obligations.EveryStepAnswers := by
  unfold Obligations.EveryStepAnswers
  intro s
  match h : fetch s with
  | (t, none) => exact ⟨t, step_of_fetch_none h⟩
  | (t, some i) =>
    rw [step, h]
    exact exec_next i t

/-- Settles O9: the turn is the sequencer's, and it is stuck (`engineTurn_of_stuck`). -/
theorem noEnabledStepKeepsState : Obligations.NoEnabledStepKeepsState := by
  unfold Obligations.NoEnabledStepKeepsState
  intro s hi stuck
  exact step_of_fetch_none ((fetch_of_no_inputs hi).trans (engineTurn_of_stuck stuck))

/-- Settles O13: a word of the three clauses does not decode (`decode_eq_error_iff`), so the turn is `E_ILLEGAL`'s. -/
theorem illegalWordEnds : Obligations.IllegalWordEnds := by
  unfold Obligations.IllegalWordEnds
  intro s hr hi hp clauses
  obtain ⟨e, hd⟩ := (decode_eq_error_iff s.ir).2 clauses
  exact step_of_fetch_none ((fetch_of_no_inputs hi).trans (engineTurn_of_illegal hr hp hd))

/-- Settles O55: the event is taken, and in IDLE and DECODE its record is discarded (`delivery_of_not_wait`). -/
theorem lateDeliveryDiscarded : Obligations.LateDeliveryDiscarded := by
  unfold Obligations.LateDeliveryDiscarded
  intro s d es hp hi
  have notWaiting : s.phase ≠ .wait := by rcases hp with h | h <;> simp [h]
  exact step_of_fetch_none ((fetch_of_event hi).trans (delivery_of_not_wait (s := { s with inputs := es }) d notWaiting))

/-! ## Reset -/

/-- The pin driven low makes the reset state (R230). -/
theorem step_rstn_low {s : State} {es : List Event} (hi : s.inputs = .rstn false :: es) :
    step s = .next { resetAction s with rstN := false, inputs := es } :=
  step_of_fetch_none (fetch_of_event hi)

/-- The release of the pin makes it once more (R230). -/
theorem step_rstn_release {s : State} {es : List Event} (hr : s.rstN = false) (hi : s.inputs = .rstn true :: es) :
    step s = .next { resetAction s with rstN := true, inputs := es } := by
  refine step_of_fetch_none ((fetch_of_event hi).trans ?_)
  simp only [perform, pinReset, hr]
  rfl

/-- From the reset state, held by the pin, a step is a reset or an agent's outside OTPE: every other needs the pin high, or
WAIT, which the reset state is not in. -/
theorem held_step {s t : State} (low : s.rstN = false) (held : s = resetAction s) (h : step s = .next t) :
    t = resetAction t ∧ t.ie = false ∧ t.owed <:+ s.owed := by
  have ie : s.ie = false := by rw [held]; rfl
  have idle : s.phase = .idle := by rw [held]; rfl
  cases step_cases s t h with
  | exec _ _ _ _ hr => simp [low] at hr
  | illegal _ _ hr => simp [low] at hr
  | write _ _ _ hr => simp [low] at hr
  | reset level es _ ht =>
    subst ht
    exact ⟨rfl, rfl, List.suffix_refl _⟩
  | outside es owed clock data draws ho ht =>
    subst ht
    refine ⟨?_, ie, ho⟩
    rw [held]
    rfl
  | lost _ _ _ _ _ hp => simp [idle] at hp

/-- Settles O58: a held state by `held_step`, the two pin events by their step rules. -/
theorem heldInReset : Obligations.HeldInReset := by
  unfold Obligations.HeldInReset
  refine ⟨fun s t low held h => ?held, fun s es hi => ?low, fun s es low hi => ?release⟩
  case held =>
    obtain ⟨same, ie, owed⟩ := held_step low held h
    exact ⟨same, irq_of_ie_false ie, owed⟩
  case low => exact step_rstn_low hi
  case release => exact step_rstn_release low hi

/-- Settles O57: the write is the next step, and it is the reset action (`hostWrite_srst`). -/
theorem softResetInAnyPhase : Obligations.SoftResetInAnyPhase := by
  unfold Obligations.SoftResetInAnyPhase
  intro s v es hr hi hv
  rw [step_write hr hi, hostWrite_srst v _ hv, ← hr]
  rfl

end Sys2Proof.Machine
end

section
/-! PROOFS. Everything a command's step can do, once for all commands (30_encoding.md R126 to R131), and what that says of its
frame and its errors (10_state.md R61, 60_exceptions.md R203, R204). -/

namespace Sys2Proof.Machine

/-! ## The cases of `exec` -/

/-- The commands that fill the window RAM (R129). -/
def fillsWindow : Instr → Bool
  | .totp _ _ => true
  | .verify => true
  | _ => false

/-- The state in which a presented record has been taken and stored (R129). -/
def recordTaken (w : Bool) (d : Digest) (s : State) : State := storeCode w (usedBytes s d) { s with rsp := none }

/-- Taking a record changes `DBC`, `VALUE`, memory and the response port only. -/
theorem recordTaken_eq (w : Bool) (d : Digest) (s : State) : recordTaken w d s = { s with
    mem := (recordTaken w d s).mem, dbc := (recordTaken w d s).dbc, value := (recordTaken w d s).value, rsp := none } := by
  cases w <;> rfl

/-- A record taken, and the sequencer at the next position. -/
def pastRecord (w : Bool) (d : Digest) (s : State) : State := { s with
  mem := (recordTaken w d s).mem, dbc := (recordTaken w d s).dbc, value := (recordTaken w d s).value, rsp := none
  idx := s.idx + 1 }

/-- Everything `exec i` can make of the state `s`. -/
inductive ExecCase (i : Instr) (s : State) : State → Prop where
  /-- the decode step ends the command with an error -/
  | error (c : ErrCode) (samples : Nat) (hp : s.phase = .decode) (hc : c ≠ .none)
      (hs : samples = 0 ∨ (c = .range ∧ samples = 1)) : ExecCase i s (errorEnd c samples s)
  /-- `INIT` makes the staged configuration active -/
  | configures (a : Active) (hi : i = .init) (hp : s.phase = .decode) (ha : construct s.cfg = some a) :
      ExecCase i s { s with act := a, status := endedStatus .none s, phase := .idle }
  /-- `TRUNC` truncates `DIGEST` -/
  | truncates (hi : i = .trunc) (hp : s.phase = .decode) :
      ExecCase i s (complete .none (truncateInto (digestOperand s) s))
  /-- `STEP` takes the current step -/
  | samples (hi : i = .step) (hp : s.phase = .decode) (q : DWord) :
      ExecCase i s { s with
        now := clockNow s, stepReg := q, status := endedStatus .none s, phase := .idle, draws := s.draws + 1 }
  /-- the decode step of a command that uses the HMAC unit asks for its first request -/
  | starts (n : Nat) (msg0 now stepReg : DWord) (draws : Nat) (hp : s.phase = .decode) (hs : s.secretLen.toNat ≤ 128)
      (hn : requestCount s i = some n) :
      ExecCase i s { s with
        n := n, idx := 0, msg0 := msg0, now := now, stepReg := stepReg, phase := .req, draws := draws }
  /-- the request step -/
  | requests (hp : s.phase = .req) : ExecCase i s (requestStep s)
  /-- the wait step before the last position -/
  | stores (d : Digest) (hu : requestCount s i ≠ none) (hp : s.phase = .wait) (hd : s.rsp = some d)
      (hlt : s.idx + 1 < s.n) :
      ExecCase i s { pastRecord (fillsWindow i) d s with phase := .req }
  /-- the wait step at the last position; only the commands that fill the window write `WCOUNT`, and only `VERIFY` `RESULT` -/
  | finishes (d : Digest) (wcount : BitVec 8) (result : Word) (hu : requestCount s i ≠ none) (hp : s.phase = .wait)
      (hd : s.rsp = some d) (hle : s.n ≤ s.idx + 1) (hw : fillsWindow i = false → wcount = s.wcount)
      (hr : result = s.result ∨ (i = .verify ∧ ∃ u, result = resultWord (outcomeOf u s.act.past.toNat s.n))) :
      ExecCase i s (complete .none { pastRecord (fillsWindow i) d s with wcount := wcount, result := result })
  /-- no step is enabled -/
  | stays (h : s.phase ≠ .decode ∧
      (s.phase = .idle ∨ (s.phase = .wait ∧ s.rsp = none) ∨ requestCount s i = none)) : ExecCase i s s

/-- A command that ends in its decode step does nothing in another phase. -/
theorem execCase_atDecode {i : Instr} {s : State} (arm : State → State) (hn : requestCount s i = none)
    (harm : s.phase = .decode → ExecCase i s (arm s)) : ExecCase i s (atDecode arm s) := by
  unfold atDecode
  split
  · exact harm ‹_›
  · exact .stays ⟨‹_›, .inr (.inr hn)⟩

/-- A command that uses the HMAC unit, by phase: its own parts are the arm of the decode step and the finalisation. -/
theorem execCase_hmacCommand {i : Instr} {s : State} (start last : State → State) (hu : requestCount s i ≠ none)
    (hstart : s.phase = .decode → s.secretLen.toNat ≤ 128 → ExecCase i s (start s))
    (hlast : ∀ u : State, u.n = s.n → u.act = s.act → u.wcount = s.wcount → u.result = s.result →
      ∃ wcount result, last u = complete .none { u with wcount := wcount, result := result } ∧
        (fillsWindow i = false → wcount = s.wcount) ∧
        (result = s.result ∨ (i = .verify ∧ ∃ v, result = resultWord (outcomeOf v s.act.past.toNat s.n)))) :
    ExecCase i s (hmacCommand (fillsWindow i) start last s) := by
  unfold hmacCommand
  split
  case h_1 hp => exact .stays ⟨by simp [hp], .inl hp⟩
  case h_2 hp =>
    rcases secretChecked_cases start s with ⟨_, run⟩ | ⟨hs, run⟩
    · rw [run]
      exact .error .secret 0 hp (by decide) (.inl rfl)
    · rw [run]
      exact hstart hp hs
  case h_3 hp => exact .requests hp
  case h_4 hp =>
    rcases waitStep_cases (fillsWindow i) last s with ⟨absent, run⟩ | ⟨d, hd, ⟨hlt, run⟩ | ⟨hle, run⟩⟩
    · rw [run]
      exact .stays ⟨by simp [hp], .inr (.inl ⟨hp, absent⟩)⟩
    · rw [run, ← recordTaken, recordTaken_eq]
      exact .stores d hu hp hd hlt
    · rw [run, ← recordTaken, recordTaken_eq]
      obtain ⟨wcount, result, ends, hw, hr⟩ := hlast (pastRecord (fillsWindow i) d s) rfl rfl rfl rfl
      show ExecCase i s (last (pastRecord (fillsWindow i) d s))
      rw [ends]
      exact .finishes d wcount result hu hp hd hle hw hr

/-- The arm `TOTP` and `VERIFY` share starts the window or ends with `E_RANGE`. -/
theorem execCase_windowArm {i : Instr} {s : State} {p f : Nat} (hp : s.phase = .decode) (hs : s.secretLen.toNat ≤ 128)
    (hn : requestCount s i = some (p + 1 + f)) : ExecCase i s (windowArm p f s) := by
  rcases windowArm_cases p f s with ⟨_, run⟩ | ⟨_, run⟩
  · rw [run]
    exact .starts _ _ _ _ _ hp hs hn
  · rw [run]
    exact .error .range 1 hp (by decide) (.inr ⟨rfl, rfl⟩)

/-- Everything a command's step can do. -/
theorem exec_cases {i : Instr} {s t : State} (h : exec i s = .next t) : ExecCase i s t := by
  cases i with
  | init =>
    cases h
    refine execCase_atDecode initArm rfl fun hp => ?_
    rcases initArm_cases s with ⟨a, ha, run⟩ | ⟨_, run⟩
    · rw [run]
      exact .configures a rfl hp ha
    · rw [run]
      exact .error .config 0 hp (by decide) (.inl rfl)
  | trunc =>
    cases h
    exact execCase_atDecode truncArm rfl fun hp => .truncates rfl hp
  | step =>
    cases h
    refine execCase_atDecode stepArm rfl fun hp => ?_
    rcases stepArm_cases s with ⟨_, run⟩ | ⟨_, run⟩
    · rw [run]
      exact .samples rfl hp _
    · rw [run]
      exact .error .range 1 hp (by decide) (.inr ⟨rfl, rfl⟩)
  | hotp =>
    cases h
    refine execCase_hmacCommand hotpArm hotpLast (by simp [requestCount])
      (fun hp hs => .starts 1 s.counter s.now s.stepReg s.draws hp hs rfl) fun u _ _ hw hr => ?_
    exact ⟨u.wcount, u.result, rfl, fun _ => hw, .inl hr⟩
  | totp past future =>
    cases h
    refine execCase_hmacCommand _ totpLast (by simp [requestCount])
      (fun hp hs => execCase_windowArm hp hs rfl) fun u _ _ _ hr => ?_
    exact ⟨BitVec.ofNat 8 u.n, u.result, rfl, by simp [fillsWindow], .inl hr⟩
  | verify =>
    cases h
    refine execCase_hmacCommand verifyArm verifyLast (by simp [requestCount])
      (fun hp hs => execCase_windowArm hp hs rfl) fun u hn ha _ _ => ?_
    exact ⟨BitVec.ofNat 8 u.n, resultWord (outcomeOf u u.act.past.toNat u.n), rfl, by simp [fillsWindow],
      .inr ⟨rfl, u, by rw [hn, ha]⟩⟩

/-! ## The frame -/

/-- What no command's step changes: the operand registers but `DIGEST`, `IR`, `CTRL.IE` and what the agents hold (R61). -/
structure KeepsOperands (s t : State) : Prop where
  cfg : t.cfg = s.cfg
  counter : t.counter = s.counter
  secretLen : t.secretLen = s.secretLen
  candLen : t.candLen = s.candLen
  ir : t.ir = s.ir
  ie : t.ie = s.ie
  wdrop : t.status.wdrop = s.status.wdrop
  rstN : t.rstN = s.rstN
  clockPin : t.clockPin = s.clockPin
  readData : t.readData = s.readData
  inputs : t.inputs = s.inputs

theorem ExecCase.keepsOperands {i : Instr} {s t : State} (h : ExecCase i s t) : KeepsOperands s t := by
  cases h with
  | error | configures | truncates | samples | starts | requests | stores | finishes | stays => constructor <;> rfl

/-- `INIT` alone changes the active configuration, in its decode step (R188). -/
theorem ExecCase.act {i : Instr} {s t : State} (h : ExecCase i s t) :
    t.act = s.act ∨ (i = .init ∧ s.phase = .decode ∧ construct s.cfg = some t.act) := by
  cases h with
  | configures a hi hp ha => exact .inr ⟨hi, hp, ha⟩
  | error | truncates | samples | starts | requests | stores | finishes | stays => exact .inl rfl

/-- Only the commands that fill the window change `WCOUNT` and `RESULT`. -/
theorem ExecCase.outcome {i : Instr} {s t : State} (h : ExecCase i s t) (hw : fillsWindow i = false) :
    t.wcount = s.wcount ∧ t.result = s.result := by
  cases h with
  | error | configures | truncates | samples | starts | requests | stores | stays => exact ⟨rfl, rfl⟩
  | finishes d wcount result _ _ _ _ hcount hresult =>
    refine ⟨hcount hw, hresult.elim id ?_⟩
    rintro ⟨rfl, _⟩
    cases hw

/-- Outside `CODE`, `DIGEST` and, for the commands that fill it, the window, taking a record changes no byte. -/
theorem read_recordTaken_of_not (w : Bool) (s : State) (d : Digest) {a : Nat} (hd : ¬Within digestBase 64 a)
    (hc : ¬Within codeBase 12 a) (hw : ¬(w = true ∧ 0x1000 ≤ a)) :
    (recordTaken w d s).mem.read a = s.mem.read a := by
  have short : (usedBytes s d).length ≤ 64 := (length_usedBytes s d).trans_le (digestLen_le s.act.alg)
  have above := winEntry_ge s.idx
  rw [recordTaken, read_storeCode _ _ _ _ short, if_neg, if_neg hc, if_neg hd]
  rintro ⟨fills, low, _⟩
  exact hw ⟨fills, above.trans low⟩

/-- A command's step changes no byte outside `CODE`, outside `DIGEST` if it stores a record, and outside the window if it
fills it (R245). -/
theorem ExecCase.read {i : Instr} {s t : State} (h : ExecCase i s t) {a : Nat}
    (hd : s.phase = .wait → requestCount s i ≠ none → ¬Within digestBase 64 a) (hc : ¬Within codeBase 12 a)
    (hw : ¬(fillsWindow i = true ∧ 0x1000 ≤ a)) : t.mem.read a = s.mem.read a := by
  cases h with
  | error | configures | samples | starts | requests | stays => rfl
  | truncates => exact Memory.read_writeBytes_of_not _ _ _ _ (by rw [length_codeFieldOf]; exact hc)
  | stores d hu hp => exact read_recordTaken_of_not _ s d (hd hp hu) hc hw
  | finishes d _ _ hu hp => exact read_recordTaken_of_not _ s d (hd hp hu) hc hw

/-- The bytes of `SECRET` and `CAND` (R36, R38). -/
abbrev InSecretOrCand (a : Nat) : Prop := (0x100 ≤ a ∧ a ≤ 0x17F) ∨ (0x070 ≤ a ∧ a ≤ 0x07B)

theorem ExecCase.read_secret_cand {i : Instr} {s t : State} (h : ExecCase i s t) {a : Nat} (ha : InSecretOrCand a) :
    t.mem.read a = s.mem.read a :=
  h.read (fun _ _ => by unfold Within digestBase; omega) (by unfold Within codeBase; omega) (by omega)

/-- Settles O17: the registers by `ExecCase.keepsOperands`, the bytes by `ExecCase.read_secret_cand`. -/
theorem commandsKeepOperandsButDigest : Obligations.CommandsKeepOperandsButDigest := by
  unfold Obligations.CommandsKeepOperandsButDigest
  intro i s t h
  have run := exec_cases h
  have kept := run.keepsOperands
  exact ⟨kept.cfg, kept.counter, kept.secretLen, kept.candLen, kept.ir, kept.ie, kept.wdrop,
    fun a ha => run.read_secret_cand ha, kept.rstN, kept.clockPin, kept.readData, kept.inputs⟩

/-- Settles O18: none of the four fills the window, so the registers are kept by `ExecCase.outcome` and the bytes by
`ExecCase.read`. -/
theorem otherCommandsKeepWindow : Obligations.OtherCommandsKeepWindow := by
  unfold Obligations.OtherCommandsKeepWindow
  intro i s t hi h
  have run := exec_cases h
  have hw : fillsWindow i = false := by rcases hi with rfl | rfl | rfl | rfl <;> rfl
  obtain ⟨wcount, result⟩ := run.outcome hw
  refine ⟨wcount, result, fun a ha => run.read (fun _ _ => ?_) ?_ (by simp [hw])⟩
  · unfold Within digestBase; omega
  · unfold Within codeBase; omega

/-! ## Errors and completions -/

/-- Settles O15: of the cases that end in IDLE only the first carries an error code. -/
theorem errorCompletionIsPrecise : Obligations.ErrorCompletionIsPrecise := by
  unfold Obligations.ErrorCompletionIsPrecise
  intro i s t hp h idle failed
  cases exec_cases h with
  | error c samples _ _ hs =>
    rcases hs with rfl | ⟨rfl, rfl⟩
    · exact .inl rfl
    · exact .inr ⟨rfl, rfl⟩
  | configures | truncates | samples | finishes => exact absurd rfl failed
  | starts | requests | stores => cases idle
  | stays => exact absurd (hp.symm.trans idle) (by decide)

/-- Settles O16: after the decode step the finalisation alone leads to IDLE, and it completes with `E_NONE`. -/
theorem noErrorAfterFirstRequest : Obligations.NoErrorAfterFirstRequest := by
  unfold Obligations.NoErrorAfterFirstRequest
  intro i s t running h idle
  have decoded : s.phase ≠ .decode := by rcases running with hp | hp <;> simp [hp]
  have busy : s.phase ≠ .idle := by rcases running with hp | hp <;> simp [hp]
  cases exec_cases h with
  | error _ _ hp => exact absurd hp decoded
  | configures _ _ hp | truncates _ hp | samples _ hp => exact absurd hp decoded
  | starts | requests | stores => cases idle
  | finishes => rfl
  | stays => exact absurd idle busy

end Sys2Proof.Machine
end

section
/-! PROOFS. What holds across every step of every agent (10_state.md, 20_memory.md R77, R95, 44_config.md R188,
60_exceptions.md R202): the operands while a command runs, the ways out of WAIT and of BUSY, and the invariant. -/

namespace Sys2Proof.Machine

/-! ## Host writes while a command runs -/

/-- While `BUSY = 1` a write that is no reset reaches `WDROP`, `DONE` and `CTRL.IE` at most (R77). -/
theorem hostWrite_of_busy {w : BitVec 11} {v : Word} {s : State} (hb : s.status.busy = true)
    (hn : ¬(w = 0x002#11 ∧ v.getLsbD 31 = true)) :
    ∃ done wdrop ie, hostWrite w v s = { s with status := { s.status with done := done, wdrop := wdrop }, ie := ie } := by
  have taken : s.status.busy ≠ false := by simp [hb]
  cases hostWrite_cases w v s with
  | dropped _ ht => exact ⟨_, _, _, ht⟩
  | cleared ht => exact ⟨_, _, _, ht⟩
  | enabled ht => exact ⟨_, _, _, ht⟩
  | ignored ht => exact ⟨_, _, _, ht⟩
  | accepted hf | registers hf | bytes hf => exact absurd hf taken
  | reset hw hv => exact absurd ⟨hw, hv⟩ hn

/-- A write that is listed next and is no reset is no write of `CTRL.SRST` (R232). -/
theorem ne_srst_of_noResetNext {s : State} {w : BitVec 11} {v : Word} {es : List Event} (hi : s.inputs = .write w v :: es)
    (hn : noResetNext s = true) : ¬(w = 0x002#11 ∧ v.getLsbD 31 = true) := by
  rintro ⟨rfl, hv⟩
  simp only [noResetNext, hi, hv] at hn
  exact absurd hn (by decide)

/-- A host write leaves the active configuration as it is, if it is no reset (R33). -/
theorem act_hostWrite {w : BitVec 11} {v : Word} {s : State} (hn : ¬(w = 0x002#11 ∧ v.getLsbD 31 = true)) :
    (hostWrite w v s).act = s.act := by
  cases hostWrite_cases w v s with
  | dropped _ ht | accepted _ ht => rw [ht]; rfl
  | registers _ _ _ _ _ ht => rw [ht]
  | bytes _ _ _ ht => rw [ht]
  | cleared ht | enabled ht | ignored ht => rw [ht]
  | reset hw hv => exact absurd ⟨hw, hv⟩ hn

/-- Settles O22: a command's step by `ExecCase.act`; of the other steps only a reset changes the active configuration. -/
theorem activeChangesOnlyByInit : Obligations.ActiveChangesOnlyByInit := by
  unfold Obligations.ActiveChangesOnlyByInit
  intro s t h changed
  cases step_cases s t h with
  | exec i es owed rsp hr hd _ _ he =>
    rcases (exec_cases he).act with same | ⟨rfl, hp, ha⟩
    · exact absurd same changed
    · exact .inl ⟨hr, hp, hd, ha⟩
  | reset level es hn ht => exact .inr ⟨hn, by rw [ht]; rfl⟩
  | write w v es _ hi hn ht => exact absurd (by rw [ht, act_hostWrite (ne_srst_of_noResetNext hi hn)]) changed
  | illegal _ _ _ _ _ ht => exact absurd (by rw [ht]; rfl) changed
  | outside _ _ _ _ _ _ ht => exact absurd (by rw [ht]) changed
  | lost _ _ _ _ _ _ _ ht => exact absurd (by rw [ht]) changed

/-- Settles O52: a command's step by the frame of `ExecCase`, a write by `hostWrite_of_busy`. -/
theorem operandsFrozenWhileBusy : Obligations.OperandsFrozenWhileBusy := by
  unfold Obligations.OperandsFrozenWhileBusy
  intro s t hb hn h
  cases step_cases s t h with
  | exec i es owed rsp _ hd _ _ he =>
    have run := exec_cases he
    have kept := run.keepsOperands
    refine ⟨kept.ir, kept.cfg, kept.counter, kept.secretLen, kept.candLen, fun a ha => run.read_secret_cand ha,
      fun notInit => ?act, fun notStoring a ha => run.read ?digest ?code ?window⟩
    case act =>
      rcases run.act with same | ⟨rfl, hp, _⟩
      · exact same
      · exact absurd ⟨hp, hd⟩ notInit
    case digest =>
      intro waiting uses
      rcases notStoring with trunc | notWaiting
      · obtain rfl : i = .trunc := Except.ok.inj (hd.symm.trans trunc)
        exact absurd rfl uses
      · exact absurd waiting notWaiting
    case code => unfold Within codeBase; omega
    case window => omega
  | illegal _ _ _ _ _ ht => subst ht; simp [errorEnd]
  | write w v es _ hi _ ht =>
    obtain ⟨done, wdrop, ie, hw⟩ := hostWrite_of_busy (s := { s with inputs := es }) hb (ne_srst_of_noResetNext hi hn)
    rw [hw] at ht
    subst ht
    simp
  | reset _ _ hn' => simp [hn] at hn'
  | outside _ _ _ _ _ _ ht => subst ht; simp
  | lost _ _ _ _ _ _ _ ht => subst ht; simp

/-- Settles O10: with no record at the port and none coming, no command's step is taken in WAIT. -/
theorem onlyDeliveryOrResetLeavesWait : Obligations.OnlyDeliveryOrResetLeavesWait := by
  unfold Obligations.OnlyDeliveryOrResetLeavesWait
  intro s t hp absent hb hn noDelivery noAnswer h
  have noRecord : ¬RecordNext s := by
    rintro (⟨d, es, hi⟩ | ⟨es, hi⟩)
    · exact noDelivery d es hi
    · exact noAnswer es hi
  cases step_cases s t h with
  | exec _ _ _ rsp _ _ enabled hrsp =>
    rcases enabled with hp' | hp' | ⟨_, presented⟩
    · exact absurd (hp.symm.trans hp') (by decide)
    · exact absurd (hp.symm.trans hp') (by decide)
    · rcases hrsp with rfl | ⟨_, record⟩
      · exact absurd absent presented
      · exact absurd record noRecord
  | illegal _ _ _ _ hp' => exact absurd (hp.symm.trans hp') (by decide)
  | write w v es _ hi _ ht =>
    obtain ⟨done, wdrop, ie, hw⟩ := hostWrite_of_busy (s := { s with inputs := es }) hb (ne_srst_of_noResetNext hi hn)
    rw [hw] at ht
    subst ht
    exact ⟨hp, hb, rfl, rfl, rfl, rfl⟩
  | reset _ _ hn' => simp [hn] at hn'
  | outside _ _ _ _ _ _ ht =>
    subst ht
    exact ⟨hp, hb, rfl, rfl, rfl, rfl⟩
  | lost _ _ _ _ _ _ record => exact absurd record noRecord

/-! ## How a command ends -/

/-- The command of `s` ended in `t` (R202): the status is a completion's, and `IR`, `CTRL`, `N` and `MSG0` are kept. -/
def Ended (s t : State) : Prop :=
  t.status = endedStatus t.status.errcode s ∧ t.phase = .idle ∧ t.ie = s.ie ∧ t.ir = s.ir ∧ t.n = s.n ∧ t.msg0 = s.msg0

/-- A completion sets `DONE`, so `irq` shows the interrupt enable (R210). -/
theorem irq_of_ended {s t : State} (h : Ended s t) : irq t = s.ie := by
  obtain ⟨status, _, ie, _⟩ := h
  rw [irq, ie, status]
  simp [endedStatus]

/-- A command's step that clears `BUSY` ends the command. -/
theorem ExecCase.ended {i : Instr} {s t : State} (h : ExecCase i s t) (hb : s.status.busy = true)
    (hf : t.status.busy = false) : Ended s t := by
  have running : s.status.busy ≠ false := by simp [hb]
  cases h with
  | error | configures | truncates | samples | finishes => exact ⟨rfl, rfl, rfl, rfl, rfl, rfl⟩
  | starts | requests | stores | stays => exact absurd hf running

/-- Settles O12: a step that clears `BUSY` is a command's (`ExecCase.ended`) or the end of an illegal word. -/
theorem commandEndsByCompletion : Obligations.CommandEndsByCompletion := by
  unfold Obligations.CommandEndsByCompletion
  intro s t _ hn hb h hf
  have running : s.status.busy ≠ false := by simp [hb]
  have ended : Ended s t := by
    cases step_cases s t h with
    | exec i es owed rsp _ _ _ _ he => exact (exec_cases he).ended hb hf
    | illegal _ _ _ _ _ ht => subst ht; exact ⟨rfl, rfl, rfl, rfl, rfl, rfl⟩
    | write w v es _ hi _ ht =>
      obtain ⟨done, wdrop, ie, hw⟩ := hostWrite_of_busy (s := { s with inputs := es }) hb (ne_srst_of_noResetNext hi hn)
      rw [hw] at ht
      subst ht
      exact absurd hf running
    | reset _ _ hn' => simp [hn] at hn'
    | outside _ _ _ _ _ _ ht => subst ht; exact absurd hf running
    | lost _ _ _ _ _ _ _ ht => subst ht; exact absurd hf running
  have hirq := irq_of_ended ended
  obtain ⟨status, phase, ie, ir, n, msg0⟩ := ended
  exact ⟨status, phase, ie, ir, n, msg0, hirq⟩

end Sys2Proof.Machine
end

section
/-! PROOFS. The invariant holds after reset and across every step of every agent (10_state.md, 70_reset_and_hazards.md R230):
first what a command's step does to memory and to `RESULT`, then one lemma per kind of step. -/

namespace Sys2Proof.Machine

/-! ## The memory: canonical, and mapped bytes only -/

/-- A good memory: in canonical form, with bytes of the buffers and the window RAM only (R20, R88). -/
structure Memory.Good (m : Memory) : Prop where
  wf : m.wf = true
  mapped : ∀ c ∈ m, Mapped c.1

theorem Memory.Good.writeBytes {m : Memory} (h : m.Good) {a : Nat} {bs : List Byte}
    (ha : ∀ b, a ≤ b ∧ b < a + bs.length → Mapped b) : (m.writeBytes a bs).Good where
  wf := Memory.wf_writeBytes bs m a h.wf
  mapped c hc := (Memory.mem_writeBytes bs m a c hc).elim (ha c.1) (h.mapped c)

theorem Memory.Good.truncateInto {s : State} (g : s.mem.Good) (h : List Byte) : (truncateInto h s).mem.Good :=
  g.writeBytes fun b hb => by
    rw [length_codeFieldOf, codeBase] at hb
    unfold Mapped
    omega

theorem Memory.Good.storeDigest {s : State} (g : s.mem.Good) {h : List Byte} (hl : h.length ≤ 64) :
    (storeDigest h s).mem.Good :=
  g.writeBytes fun b hb => by
    rw [List.length_append, List.length_replicate, Config.digestMax, digestBase] at hb
    unfold Mapped
    omega

/-- Storing a digest keeps the memory good where the window entry is one of the 255 of the window RAM (R46). -/
theorem Memory.Good.storeCode {s : State} (g : s.mem.Good) {h : List Byte} (hl : h.length ≤ 64) (w : Bool)
    (hi : s.idx < 255) : (storeCode w h s).mem.Good := by
  have registers : (Machine.truncateInto h (Machine.storeDigest h s)).mem.Good := (g.storeDigest hl).truncateInto h
  cases w with
  | false => exact registers
  | true =>
    refine registers.writeBytes fun b hb => ?_
    rw [length_winBytes, truncateInto_idx, storeDigest_idx, winEntry] at hb
    unfold Mapped
    omega

/-! ## `RESULT` and the number of requests -/

/-- The first matching position of an outcome is one of the `n` positions (R176). -/
theorem outcomeOf_cases (s : State) (p n : Nat) :
    outcomeOf s p n = none ∨ ∃ i, i < n ∧ outcomeOf s p n = some ((i : Int) - p) := by
  unfold outcomeOf
  cases h : (List.range n).find? (matchAt s) with
  | none => exact .inl rfl
  | some i => exact .inr ⟨i, List.mem_range.1 (List.mem_of_find?_eq_some h), rfl⟩

/-- The outcome of a window of at most 127 steps on either side is a legal `RESULT` (R23). -/
theorem legalResult_outcome (s : State) {p f : Nat} (hp : p ≤ 127) (hf : f ≤ 127) :
    LegalResult (resultWord (outcomeOf s p (p + 1 + f))) := by
  rcases outcomeOf_cases s p (p + 1 + f) with invalid | ⟨i, hi, success⟩
  · rw [invalid]
    exact .inr (.inl rfl)
  · rw [success]
    exact .inr (.inr ⟨(i : Int) - p, by omega, by omega, isSuccess_resultWord _⟩)

/-- A decoded command makes at most 255 requests, and at least one if it makes any (R57). -/
theorem requestCount_bounds {s : State} {i : Instr} {w : Word} {n : Nat} (hd : decode w = .ok i)
    (hn : requestCount s i = some n) : 1 ≤ n ∧ n ≤ 255 := by
  have past := s.act.past.isLt
  have future := s.act.future.isLt
  cases i with
  | init | trunc | step => cases hn
  | hotp => cases hn; decide
  | totp p f =>
    obtain ⟨inRange, _⟩ := wellFormed_and_encode_of_decode hd
    obtain ⟨⟨_, hp⟩, ⟨_, hf⟩⟩ := (wellFormed_totp_iff p f).1 inRange
    cases hn
    unfold clamp0
    omega
  | verify => cases hn; omega

/-! ## The steps -/

/-- The configurations `INIT` makes active are legal (R33, R185). -/
theorem legal_of_construct {c : Staged} {a : Active} (h : construct c = some a) :
    (6 ≤ a.digits.toNat ∧ a.digits.toNat ≤ 10) ∧ 1 ≤ a.stepSeconds.toNat ∧ a.stepSeconds.toNat ≤ 2 ^ 31 - 1 := by
  obtain ⟨inRange, _, digits, stepSeconds, _⟩ := (construct_eq_some_iff c a).1 h
  obtain ⟨hdigits, hstep, _⟩ := (stagedInRange_iff c).1 inRange
  have hpos := BitVec.toInt_eq_toNat_cond c.stepSeconds
  have hlt := c.stepSeconds.isLt
  rw [digits, stepSeconds, BitVec.toNat_setWidth]
  split at hpos <;> omega

/-- Only `IR`, the active configuration, `N`, `IDX` and `SECRET_LEN` decide whether a command is running. -/
theorem Running.congr {s t : State} (h : Running s) (ir : t.ir = s.ir) (act : t.act = s.act) (n : t.n = s.n)
    (idx : t.idx = s.idx) (secretLen : t.secretLen = s.secretLen) : Running t := by
  obtain ⟨⟨i, hd, hn⟩, position, secret⟩ := h
  refine ⟨⟨i, ir ▸ hd, ?_⟩, by rw [n, idx]; exact position, by rw [secretLen]; exact secret⟩
  rw [n, ← hn]
  cases i with
  | verify => rw [requestCount, act]; rfl
  | init | trunc | hotp | step | totp => rfl

/-- Settles O59: every item of the reset state is a literal. -/
theorem resetStateIsGood : Obligations.ResetStateIsGood := by
  unfold Obligations.ResetStateIsGood
  exact {
    memWf := rfl
    memMapped := fun _ hc => by cases hc
    busyIff := by decide
    errIff := by decide
    busyClear := by decide
    digits := by decide
    stepSeconds := by decide
    result := .inl rfl
    value := by decide
    counts := by decide
    running := by simp [State.reset]
    rspTaken := rfl
    heldReset := fun _ => rfl }

/-- A reset makes a good state, whatever the agents around OTPE hold (R231). -/
theorem Inv.reset (s : State) : Inv (resetAction s) :=
  { resetStateIsGood with
    running := by simp [resetAction, State.reset]
    heldReset := fun _ => rfl }

theorem Inv.mem {s : State} (h : Inv s) : s.mem.Good := ⟨h.memWf, h.memMapped⟩

/-- What holds while the reset pin is low is no matter while it is high. -/
theorem held_of_high {s t : State} (hr : s.rstN = true) (same : t.rstN = s.rstN) : t.rstN = false → t = resetAction t := by
  simp [same, hr]

/-- A host write that is served keeps the invariant. -/
theorem Inv.hostWrite {s : State} (h : Inv s) (hr : s.rstN = true) (w : BitVec 11) (v : Word) : Inv (hostWrite w v s) := by
  have stillRunning {t : State} (ir : t.ir = s.ir) (act : t.act = s.act) (n : t.n = s.n) (idx : t.idx = s.idx)
      (secretLen : t.secretLen = s.secretLen) (hp : s.phase = .req ∨ s.phase = .wait) : Running t :=
    (h.running hp).congr ir act n idx secretLen
  have idle (hb : s.status.busy = false) : s.phase = .idle := by
    by_contra hp
    simp [h.busyIff.2 hp] at hb
  cases hostWrite_cases w v s with
  | dropped _ ht =>
    rw [ht]
    exact { h with running := stillRunning rfl rfl rfl rfl rfl, heldReset := held_of_high hr rfl }
  | accepted _ ht =>
    rw [ht]
    exact { h with
      busyIff := by simp
      errIff := by simp
      busyClear := by simp
      result := .inl rfl
      running := by simp
      heldReset := held_of_high hr rfl }
  | registers hb _ _ _ _ ht =>
    rw [ht]
    exact { h with running := by simp [idle hb], heldReset := held_of_high hr rfl }
  | bytes hb a ha ht =>
    have good : (s.mem.writeWord a v).Good := h.mem.writeBytes fun b hb => by
      rw [length_wordBytes] at hb
      unfold Mapped
      omega
    rw [ht]
    exact { h with
      memWf := good.wf
      memMapped := good.mapped
      running := by simp [idle hb]
      heldReset := held_of_high hr rfl }
  | cleared ht =>
    rw [ht]
    exact { h with
      busyClear := fun hb => by
        obtain ⟨done, errcode, result⟩ := h.busyClear hb
        exact ⟨by simp [Status.writeOneToClear, done], errcode, result⟩
      running := stillRunning rfl rfl rfl rfl rfl
      heldReset := held_of_high hr rfl }
  | enabled ht =>
    rw [ht]
    exact { h with running := stillRunning rfl rfl rfl rfl rfl, heldReset := held_of_high hr rfl }
  | reset _ _ ht =>
    rw [ht]
    exact Inv.reset s
  | ignored ht =>
    rw [ht]
    exact h

/-- The end of a command in a state whose registers are good keeps the invariant: nothing of it is left to run. -/
theorem inv_complete {u : State} (hr : u.rstN = true) (c : ErrCode) (mem : u.mem.Good)
    (digits : 6 ≤ u.act.digits.toNat ∧ u.act.digits.toNat ≤ 10)
    (stepSeconds : 1 ≤ u.act.stepSeconds.toNat ∧ u.act.stepSeconds.toNat ≤ 2 ^ 31 - 1) (result : LegalResult u.result)
    (value : u.value.toNat < 2 ^ 31) (counts : u.n ≤ 255 ∧ u.idx ≤ 255) (rspTaken : u.rsp = none) :
    Inv (complete c u) where
  memWf := mem.wf
  memMapped := mem.mapped
  busyIff := by simp
  errIff := by simp
  busyClear := by simp
  digits := digits
  stepSeconds := stepSeconds
  result := result
  value := value
  counts := counts
  running := by simp
  rspTaken := rspTaken
  heldReset := held_of_high hr rfl

/-- The invariant is about OTPE, not about what the agents around it hold; a record at the port is the one thing it excludes
of theirs. -/
theorem Inv.agents {s : State} (h : Inv s) (es : List Event) (owed : List HmacReq) (clock : Option DWord)
    (data : Option Word) (draws : Nat) : Inv { s with
      inputs := es, owed := owed, clockPin := clock, readData := data, draws := draws, rsp := none } :=
  { h with
    running := fun hp => (h.running hp).congr rfl rfl rfl rfl rfl
    rspTaken := rfl
    heldReset := fun low => by
      have held := h.heldReset low
      rw [held]
      rfl }

/-- Taking a record keeps the memory good at every position of a running command. -/
theorem Running.mem_recordTaken {s : State} (h : Running s) (hn : s.n ≤ 255) (g : s.mem.Good) (w : Bool) (d : Digest) :
    (recordTaken w d s).mem.Good :=
  Memory.Good.storeCode (s := { s with rsp := none }) g ((length_usedBytes s d).trans_le (digestLen_le _)) w
    (h.position.trans_le hn)

theorem value_recordTaken_lt (w : Bool) (d : Digest) (s : State) : (recordTaken w d s).value.toNat < 2 ^ 31 := by
  rw [recordTaken, storeCode, storeWin_value, truncateInto_value, toNat_value]
  exact truncateValue_lt _ _

/-- The outcome of a running `VERIFY` is a legal `RESULT`: its window is the configured one (R177). -/
theorem Running.legalResult {s : State} (h : Running s) (hd : decode s.ir = .ok .verify) (u : State) :
    LegalResult (resultWord (outcomeOf u s.act.past.toNat s.n)) := by
  obtain ⟨⟨i, hi, hn⟩, _, _⟩ := h
  obtain rfl : i = .verify := Except.ok.inj (hi.symm.trans hd)
  have past := s.act.past.isLt
  have future := s.act.future.isLt
  rw [← Option.some.inj hn]
  exact legalResult_outcome u (by omega) (by omega)

/-- An enabled step of the command in `IR` keeps the invariant. Until it is taken a record may stand at the port, so the
invariant of the state before the step is the one of that state without the record. -/
theorem ExecCase.keepsInv {i : Instr} {s t : State} (run : ExecCase i s t) (h : Inv { s with rsp := none })
    (hr : s.rstN = true) (hd : decode s.ir = .ok i) (enabled : Enabled s) (hrsp : s.rsp = none ∨ s.phase = .wait) :
    Inv t := by
  have running (hp : s.phase = .req ∨ s.phase = .wait) : Running s := (h.running hp).congr rfl rfl rfl rfl rfl
  have busy (hp : s.phase ≠ .idle) : s.status.busy = true := h.busyIff.2 hp
  have noRecord (hp : s.phase ≠ .wait) : s.rsp = none := hrsp.resolve_right hp
  cases run with
  | error c samples hp =>
    exact inv_complete (u := { s with draws := s.draws + samples }) hr c h.mem h.digits h.stepSeconds h.result h.value
      h.counts (noRecord (by simp [hp]))
  | configures a hi hp ha =>
    obtain ⟨digits, stepSeconds⟩ := legal_of_construct ha
    exact inv_complete (u := { s with act := a }) hr .none h.mem digits stepSeconds h.result h.value h.counts
      (noRecord (by simp [hp]))
  | truncates hi hp =>
    exact inv_complete (u := truncateInto (digestOperand s) s) hr .none
      (Memory.Good.truncateInto (s := s) h.mem _) h.digits h.stepSeconds h.result
      ((toNat_value _ _).trans_lt (truncateValue_lt _ _)) h.counts (noRecord (by simp [hp]))
  | samples hi hp q =>
    exact inv_complete (u := { s with now := clockNow s, stepReg := q, draws := s.draws + 1 }) hr .none h.mem h.digits
      h.stepSeconds h.result h.value h.counts (noRecord (by simp [hp]))
  | starts n msg0 now stepReg draws hp hs hn =>
    obtain ⟨atLeastOne, atMost⟩ := requestCount_bounds hd hn
    exact { h with
      busyIff := by simp [busy, hp]
      counts := ⟨atMost, Nat.zero_le _⟩
      running := fun _ => ⟨⟨i, hd, by cases i <;> exact hn⟩, atLeastOne, hs⟩
      rspTaken := noRecord (by simp [hp])
      heldReset := held_of_high hr rfl }
  | requests hp =>
    exact { h with
      busyIff := by simp [requestStep, busy, hp]
      running := fun _ => (running (.inl hp)).congr rfl rfl rfl rfl rfl
      rspTaken := noRecord (by simp [hp])
      heldReset := held_of_high hr rfl }
  | stores d _ hp _ hlt =>
    have waiting := running (.inr hp)
    have good := waiting.mem_recordTaken h.counts.1 h.mem (fillsWindow i) d
    exact { h with
      memWf := good.wf
      memMapped := good.mapped
      busyIff := by simp [pastRecord, busy, hp]
      value := value_recordTaken_lt _ d s
      counts := ⟨h.counts.1, waiting.position.trans_le h.counts.1⟩
      running := fun _ =>
        { Running.congr (t := { s with idx := s.idx }) waiting rfl rfl rfl rfl rfl with position := hlt }
      rspTaken := rfl
      heldReset := held_of_high hr rfl }
  | finishes d wcount result _ hp _ _ _ hresult =>
    have waiting := running (.inr hp)
    have legal : LegalResult result := by
      rcases hresult with rfl | ⟨rfl, u, rfl⟩
      · exact h.result
      · exact waiting.legalResult hd u
    exact inv_complete (u := { pastRecord (fillsWindow i) d s with wcount := wcount, result := result }) hr .none
      (waiting.mem_recordTaken h.counts.1 h.mem (fillsWindow i) d) h.digits h.stepSeconds legal
      (value_recordTaken_lt _ d s) ⟨h.counts.1, waiting.position.trans_le h.counts.1⟩ rfl
  | stays hstay =>
    obtain ⟨notDecode, idle | ⟨waiting, absent⟩ | noRequests⟩ := hstay
    · rcases enabled with hp | hp | ⟨hp, _⟩ <;> simp [idle] at hp
    · rcases enabled with hp | hp | ⟨_, presented⟩
      · exact absurd hp notDecode
      · simp [waiting] at hp
      · exact absurd absent presented
    · obtain ⟨⟨j, hj, hn⟩, _, _⟩ := running ((enabled.resolve_left notDecode).imp_right And.left)
      obtain rfl : j = i := Except.ok.inj (hj.symm.trans hd)
      simp [noRequests] at hn

/-- Settles O60: a command's step by `ExecCase.keepsInv`, a write by `Inv.hostWrite`, a reset by `Inv.reset`; an illegal word
ends as a command does, and a record is never lost, for a command runs in WAIT. -/
theorem stepKeepsGoodState : Obligations.StepKeepsGoodState := by
  unfold Obligations.StepKeepsGoodState
  intro s t h hstep
  cases step_cases s t hstep with
  | exec i es owed rsp hr hd enabled hrsp he =>
    exact (exec_cases he).keepsInv (h.agents es owed s.clockPin s.readData s.draws) hr hd enabled
      (hrsp.imp (Eq.trans · h.rspTaken) And.left)
  | illegal _ es hr _ _ ht =>
    rw [ht]
    exact inv_complete (u := { s with inputs := es }) hr .illegal h.mem h.digits h.stepSeconds h.result h.value h.counts
      h.rspTaken
  | write w v es hr _ _ ht =>
    rw [ht]
    exact Inv.hostWrite (s := { s with inputs := es })
      { h with running := fun hp => (h.running hp).congr rfl rfl rfl rfl rfl, heldReset := held_of_high hr rfl } hr w v
  | reset level es _ ht =>
    rw [ht]
    exact Inv.reset { s with rstN := level, inputs := es }
  | outside es owed clock data draws _ ht =>
    have good := h.agents es owed clock data draws
    rw [← h.rspTaken] at good
    rw [ht]
    exact good
  | lost _ _ _ e hd hp =>
    obtain ⟨⟨i, hi, _⟩, _, _⟩ := h.running (.inr hp)
    simp [hd] at hi

end Sys2Proof.Machine
end

section
/-! PROOFS. The decode steps (30_encoding.md R126, 40_truncation.md R145, R146, 41_hotp.md R150, 42_totp.md R163 to R166,
43_verify.md R177, 44_config.md R186 to R188). -/

namespace Sys2Proof.Machine

/-! ## The arms in DECODE -/

/-- In DECODE a command that ends there is its arm (R131). -/
theorem atDecode_of_decode (arm : State → State) {s : State} (hp : s.phase = .decode) : atDecode arm s = arm s :=
  if_pos hp

theorem exec_init_decode {s : State} (hp : s.phase = .decode) : exec .init s = .next (initArm s) :=
  congrArg Host.Outcome.next (atDecode_of_decode initArm hp)

theorem exec_trunc_decode {s : State} (hp : s.phase = .decode) : exec .trunc s = .next (truncArm s) :=
  congrArg Host.Outcome.next (atDecode_of_decode truncArm hp)

theorem exec_step_decode {s : State} (hp : s.phase = .decode) : exec .step s = .next (stepArm s) :=
  congrArg Host.Outcome.next (atDecode_of_decode stepArm hp)

theorem exec_hotp_decode {s : State} (hp : s.phase = .decode) (hs : s.secretLen.toNat ≤ 128) :
    exec .hotp s = .next (hotpArm s) :=
  congrArg Host.Outcome.next (hmacCommand_decode false hotpArm hotpLast hp hs)

/-- A secret that is too long ends the command before its arm (R126 step 2). -/
theorem hmacCommand_of_secret_too_long (w : Bool) (start last : State → State) {s : State} (hp : s.phase = .decode)
    (long : 128 < s.secretLen.toNat) : hmacCommand w start last s = errorEnd .secret 0 s := by
  rw [hmacCommand, hp]
  rcases secretChecked_cases start s with ⟨_, run⟩ | ⟨short, _⟩
  · exact run
  · omega

/-- Settles O14: the three commands share the check (`hmacCommand_of_secret_too_long`). -/
theorem secretTooLongEnds : Obligations.SecretTooLongEnds := by
  unfold Obligations.SecretTooLongEnds
  intro s past future hp long
  refine ⟨?hotp, ?totp, ?verify⟩
  case hotp => exact congrArg _ (hmacCommand_of_secret_too_long false hotpArm hotpLast hp long)
  case totp => exact congrArg _ (hmacCommand_of_secret_too_long true _ totpLast hp long)
  case verify => exact congrArg _ (hmacCommand_of_secret_too_long true verifyArm verifyLast hp long)

/-- Settles O36: this is `HOTP`'s arm. -/
theorem hotpStarts : Obligations.HotpStarts := by
  unfold Obligations.HotpStarts
  exact fun s hp hs => exec_hotp_decode hp hs

/-! ## INIT -/

/-- Settles O21: an invalid configuration constructs nothing. -/
theorem initRefusesInvalid : Obligations.InitRefusesInvalid := by
  unfold Obligations.InitRefusesInvalid
  intro s hp invalid
  rw [exec_init_decode hp]
  rcases initArm_cases s with ⟨a, made, _⟩ | ⟨_, run⟩
  · exact absurd (by rw [ConfigValid, made]; rfl) invalid
  · rw [run]

/-- A staged side that fits its seven bits keeps its value in them (R33, R185). -/
theorem toNat_setWidth_side {x : Word} (low : 0 ≤ x.toInt) (high : x.toInt ≤ 127) : ((x.setWidth 7).toNat : Int) = x.toInt := by
  have number := BitVec.toInt_eq_toNat_cond x
  have := x.isLt
  rw [BitVec.toNat_setWidth]
  split at number <;> omega

/-- The code of an algorithm as a number (R27). -/
theorem toNat_algCode (a : Alg) : (algCode a).toNat = if a = .sha1 then 0 else if a = .sha256 then 1 else 2 := by
  cases a <;> rfl

/-- Settles O20: the registers by `construct_eq_some_iff`; the tests of R185 say that the narrower ones lose nothing. -/
theorem initMakesStagedActive : Obligations.InitMakesStagedActive := by
  unfold Obligations.InitMakesStagedActive
  intro s hp valid
  rcases initArm_cases s with ⟨a, made, run⟩ | ⟨none, _⟩
  case inr => simp [ConfigValid, none] at valid
  case inl =>
    obtain ⟨inRange, alg, digits, stepSeconds, startTime, past, future⟩ := (construct_eq_some_iff s.cfg a).1 made
    obtain ⟨⟨_, few⟩, _, ⟨pastLow, pastHigh⟩, ⟨futureLow, futureHigh⟩⟩ := (stagedInRange_iff s.cfg).1 inRange
    refine ⟨{ s with act := a, status := endedStatus .none s, phase := .idle }, by rw [exec_init_decode hp, run], rfl,
      ?alg, ?digits, stepSeconds, startTime, ?past, ?future⟩
    case alg => exact alg ▸ toNat_algCode a.alg
    case digits =>
      show a.digits.toNat = _
      rw [digits, BitVec.toNat_setWidth]
      omega
    case past => exact past ▸ toNat_setWidth_side pastLow pastHigh
    case future => exact future ▸ toNat_setWidth_side futureLow futureHigh

/-! ## TRUNC -/

theorem truncateValue_lt_pow (h : List Byte) (d : Nat) : truncateValue h d < 10 ^ d :=
  Nat.mod_lt _ (Nat.pow_pos (by decide))

/-- Ten digits hold every 31-bit value. -/
theorem truncateValue_ten (h : List Byte) : truncateValue h 10 = (dbcOf h).toNat :=
  Nat.mod_eq_of_lt ((dbcOf h).isLt.trans (by decide))

/-- Settles O25: a value below 2^31 has at most two thousand millions. -/
theorem truncatedValueBounds : Obligations.TruncatedValueBounds := by
  unfold Obligations.TruncatedValueBounds
  intro h d
  refine ⟨truncateValue_lt_pow h d, truncateValue_lt h d, truncateValue_ten h, ?first⟩
  case first =>
    have bound := truncateValue_lt h 10
    have byte : codeByte (truncateValue h 10) 10 0 = BitVec.ofNat 8 (0x30 + truncateValue h 10 / 10 ^ 9 % 10) := rfl
    obtain digit | digit | digit : truncateValue h 10 / 10 ^ 9 % 10 = 0 ∨ truncateValue h 10 / 10 ^ 9 % 10 = 1 ∨
      truncateValue h 10 / 10 ^ 9 % 10 = 2 := by omega
    · exact .inl (by rw [byte, digit])
    · exact .inr (.inl (by rw [byte, digit]))
    · exact .inr (.inr (by rw [byte, digit]))

/-- What `TRUNC` leaves in `CODE` (R145). -/
theorem holdsCode_truncateInto (h : List Byte) (s : State) :
    HoldsCode (truncateInto h s).mem 0x098 (truncateValue h (digitsOf s)) (digitsOf s) := by
  intro k hk
  rw [truncateInto_mem, Memory.read_writeBytes, length_codeFieldOf, codeBase, if_pos ⟨by omega, by omega⟩,
    Nat.add_sub_cancel_left, getD_codeFieldOf _ _ _ hk]

theorem sameOutside_truncateInto (h : List Byte) (s : State) : SameOutside s.mem (truncateInto h s).mem 0x098 12 :=
  fun a ha => Memory.read_writeBytes_of_not _ _ _ _ (by rw [length_codeFieldOf]; exact ha)

/-- The digest length of an algorithm as a number (R7). -/
theorem digestLen_eq (a : Alg) : digestLen a = if a = .sha1 then 20 else if a = .sha256 then 32 else 64 := by
  cases a <;> rfl

/-- Settles O27: the arm truncates `DIGEST[0..L-1]` and completes. -/
theorem truncResult : Obligations.TruncResult := by
  unfold Obligations.TruncResult
  intro s hp
  have number : (truncateInto (digestOperand s) s).value.toNat = truncateValue (digestOperand s) (digitsOf s) :=
    toNat_value _ _
  refine ⟨truncArm s, exec_trunc_decode hp, rfl, ?dbc, number, ?code, sameOutside_truncateInto _ s⟩
  case dbc =>
    rw [← digestLen_eq]
    rfl
  case code =>
    show HoldsCode (truncateInto (digestOperand s) s).mem 0x098 (truncateInto (digestOperand s) s).value.toNat (digitsOf s)
    rw [number]
    exact holdsCode_truncateInto _ s

/-- Settles O28: with the algorithm and the digest bytes the same bytes are truncated, with the digits to the same value and
code. -/
theorem truncReadsOnlyItsOperands : Obligations.TruncReadsOnlyItsOperands := by
  unfold Obligations.TruncReadsOnlyItsOperands
  intro s s' t t' hp hp' alg digits bytes ht ht'
  obtain rfl : truncArm s = t := Host.Outcome.next.inj ((exec_trunc_decode hp).symm.trans ht)
  obtain rfl : truncArm s' = t' := Host.Outcome.next.inj ((exec_trunc_decode hp').symm.trans ht')
  have operand : digestOperand s' = digestOperand s := by
    rw [digestOperand, digestOperand, lenOf, lenOf, alg]
    exact Memory.readBytes_congr _ _ _ _ bytes
  have sameDigits : digitsOf s' = digitsOf s := by rw [digitsOf, digitsOf, digits]
  refine ⟨congrArg dbcOf operand, ?value, fun k hk => ?code⟩
  case value =>
    show BitVec.ofNat 32 (truncateValue (digestOperand s') (digitsOf s')) = _
    rw [operand, sameDigits]
    rfl
  case code =>
    calc (truncateInto (digestOperand s') s').mem.read (0x098 + k)
        = codeByte (truncateValue (digestOperand s') (digitsOf s')) (digitsOf s') k := holdsCode_truncateInto _ s' k hk
      _ = codeByte (truncateValue (digestOperand s) (digitsOf s)) (digitsOf s) k := by rw [operand, sameDigits]
      _ = (truncateInto (digestOperand s) s).mem.read (0x098 + k) := (holdsCode_truncateInto _ s k hk).symm

/-! ## STEP -/

/-- A step that is an int64 is taken (R164). -/
theorem stepArm_of_in_range {s : State} (low : -2 ^ 63 ≤ stepNow s) (high : stepNow s ≤ 2 ^ 63 - 1) : stepArm s = { s with
    now := clockNow s, stepReg := BitVec.ofInt 64 (stepNow s), status := endedStatus .none s, phase := .idle
    draws := s.draws + 1 } := by
  rcases stepArm_cases s with ⟨_, run⟩ | ⟨outside, _⟩
  · exact run
  · exact absurd ((inI64_iff _).2 ⟨low, high⟩) (Bool.eq_false_iff.1 outside)

/-- A step that is none ends with `E_RANGE` (R163). -/
theorem stepArm_of_out_of_range {s : State} (h : stepNow s < -2 ^ 63 ∨ 2 ^ 63 - 1 < stepNow s) :
    stepArm s = errorEnd .range 1 s := by
  rcases stepArm_cases s with ⟨inside, _⟩ | ⟨_, run⟩
  · have := (inI64_iff _).1 inside
    omega
  · exact run

/-- The sample is the value the clock port shows, where an input gave it (R98). -/
theorem clockNow_of_pin {s : State} {v : DWord} (h : s.clockPin = some v) : clockNow s = v := by
  rw [clockNow, h, Option.getD_some]

/-- Settles O33: the step by `stepArm_of_in_range`, the sample by the cases of the clock port. -/
theorem stepResult : Obligations.StepResult := by
  have taken (s : State) (hp : s.phase = .decode) (low : -2 ^ 63 ≤ stepNow s) (high : stepNow s ≤ 2 ^ 63 - 1) :=
    (exec_step_decode hp).trans (congrArg Host.Outcome.next (stepArm_of_in_range low high))
  unfold Obligations.StepResult
  refine ⟨fun s hp q hq low high => ?anyClock, fun s v shown => ⟨clockNow_of_pin shown, fun q hp hq low high => ?shown⟩,
    fun s free => ?free, fun s v es hi => step_of_fetch_none (fetch_of_event hi)⟩
  case anyClock =>
    obtain rfl : q = stepNow s := hq
    exact taken s hp low high
  case shown =>
    obtain rfl : v = clockNow s := (clockNow_of_pin shown).symm
    obtain rfl : q = stepNow s := hq
    exact taken s hp low high
  case free => rw [clockNow, free, Option.getD_none]

/-- Settles O34: this is `stepArm_of_out_of_range`. -/
theorem stepOutOfRange : Obligations.StepOutOfRange := by
  unfold Obligations.StepOutOfRange
  intro s hp q hq outside
  obtain rfl : q = stepNow s := hq
  rw [exec_step_decode hp, stepArm_of_out_of_range outside]

/-! ## The window commands -/

/-- A window with an end that is no int64 ends with `E_RANGE` (R163, R166). -/
theorem windowArm_of_out_of_range {s : State} {p f : Nat} (h : stepNow s - p < -2 ^ 63 ∨ 2 ^ 63 - 1 < stepNow s + f) :
    windowArm p f s = errorEnd .range 1 s := by
  rcases windowArm_cases p f s with ⟨inside, _⟩ | ⟨_, run⟩
  · have := (windowInI64_iff _ p f).1 inside
    omega
  · exact run

/-- Settles O35: both commands by the arm they share. -/
theorem windowOutOfRange : Obligations.WindowOutOfRange := by
  unfold Obligations.WindowOutOfRange
  intro s q hp hs hq
  obtain rfl : q = stepNow s := hq
  refine ⟨fun past future outside => ?totp, fun outside => ?verify⟩
  case totp =>
    rw [← coe_clamp0, ← coe_clamp0] at outside
    rw [exec_totp_decode past future hp hs, windowArm_of_out_of_range outside]
  case verify => rw [exec_verify_decode hp hs, windowArm_of_out_of_range outside]

/-- Settles O37: this is `windowArm_eq` with the clamped immediates. -/
theorem totpStarts : Obligations.TotpStarts := by
  unfold Obligations.TotpStarts
  intro s past future q hp hs hq oldest newest
  obtain rfl : q = stepNow s := hq
  rw [← coe_clamp0] at oldest newest
  refine ⟨windowArm (clamp0 past) (clamp0 future) s, exec_totp_decode past future hp hs, ?_⟩
  rw [windowArm_eq s oldest newest, ← coe_clamp0, ← coe_clamp0]
  exact ⟨by simp, rfl⟩

/-- Settles O38: this is `windowArm_eq` with the configured window. -/
theorem verifyStarts : Obligations.VerifyStarts := by
  unfold Obligations.VerifyStarts
  intro s q hp hs hq oldest newest
  obtain rfl : q = stepNow s := hq
  rw [exec_verify_decode hp hs, windowArm_eq s oldest newest]

end Sys2Proof.Machine
end

section
/-! PROOFS. The request step and the wait steps (30_encoding.md R128 to R130, 41_hotp.md R151, 42_totp.md R167,
43_verify.md R175 to R179). -/

namespace Sys2Proof.Machine

/-! ## The request -/

theorem hmacCommand_of_req (w : Bool) (start last : State → State) {s : State} (hp : s.phase = .req) :
    hmacCommand w start last s = requestStep s := by
  rw [hmacCommand, hp]

/-- The counter of a position, as a number (R128). -/
theorem counter_eq_ofNat (msg0 : DWord) (idx : Nat) :
    msg0 + BitVec.ofNat 64 idx = BitVec.ofNat 64 ((msg0.toNat + idx) % 2 ^ 64) := by
  rw [← BitVec.toNat_inj, BitVec.toNat_add, BitVec.toNat_ofNat, BitVec.toNat_ofNat, Nat.add_mod_mod, Nat.mod_mod]

/-- Settles O39: in REQ the three commands do the same, and the request is `requestFor`. -/
theorem requestIsIssued : Obligations.RequestIsIssued := by
  unfold Obligations.RequestIsIssued
  intro s i hi hp
  have run : exec i s = .next (requestStep s) := by
    rcases hi with rfl | ⟨past, future, rfl⟩ | rfl
    all_goals exact congrArg Host.Outcome.next (hmacCommand_of_req _ _ _ hp)
  exact ⟨requestFor s, run, rfl, Memory.length_readBytes _ _ _, Memory.getD_readBytes s.mem 0x100 _,
    congrArg be8 (counter_eq_ofNat s.msg0 s.idx)⟩

/-! ## The wait step -/

theorem hmacCommand_of_wait (w : Bool) (start last : State → State) {s : State} (hp : s.phase = .wait) :
    hmacCommand w start last s = waitStep w last s := by
  rw [hmacCommand, hp]

/-- Before the last position the record is stored and the next request is due (R129). -/
theorem waitStep_of_next (w : Bool) (last : State → State) {s : State} {d : Digest} (hd : s.rsp = some d)
    (hlt : s.idx + 1 < s.n) : waitStep w last s = { pastRecord w d s with phase := .req } := by
  rcases waitStep_cases w last s with ⟨absent, _⟩ | ⟨d', hd', ⟨_, run⟩ | ⟨hle, _⟩⟩
  · simp [hd] at absent
  · obtain rfl : d = d' := Option.some.inj (hd.symm.trans hd')
    rw [run, ← recordTaken, recordTaken_eq]
    rfl
  · omega

/-- At the last position the record is stored and the command is finalised (R130). -/
theorem waitStep_of_last (w : Bool) (last : State → State) {s : State} {d : Digest} (hd : s.rsp = some d)
    (hle : s.n ≤ s.idx + 1) : waitStep w last s = last (pastRecord w d s) := by
  rcases waitStep_cases w last s with ⟨absent, _⟩ | ⟨d', hd', ⟨hlt, _⟩ | ⟨_, run⟩⟩
  · simp [hd] at absent
  · omega
  · obtain rfl : d = d' := Option.some.inj (hd.symm.trans hd')
    rw [run, ← recordTaken, recordTaken_eq]
    rfl

/-- A record taken is stored, in every later state that keeps `DBC`, `VALUE` and memory (R129). -/
theorem digestTaken_pastRecord (w : Bool) (d : Digest) (s t : State) (hd : t.dbc = (pastRecord w d s).dbc)
    (hv : t.value = (pastRecord w d s).value) (hm : t.mem = (pastRecord w d s).mem) :
    DigestTaken w (d.toList.take (digestLen s.act.alg)) s t := by
  obtain ⟨digest, dbc, value, code, chars, winValue, rest⟩ := digestTaken_storeCode w (usedBytes s d) { s with rsp := none } t
    ((length_usedBytes s d).trans_le (digestLen_le _)) hd hv hm
  exact ⟨digest, dbc, value, code, chars, winValue, rest⟩

/-- Settles O40: the two commands share the wait step (`waitStep_of_next`). -/
theorem nextPositionIsDue : Obligations.NextPositionIsDue := by
  unfold Obligations.NextPositionIsDue
  intro s d i hi hp hd hlt
  have run : exec i s = .next { pastRecord true d s with phase := .req } := by
    rcases hi with ⟨past, future, rfl⟩ | rfl
    all_goals exact congrArg Host.Outcome.next ((hmacCommand_of_wait true _ _ hp).trans (waitStep_of_next true _ hd hlt))
  exact ⟨_, run, digestTaken_pastRecord true d s _ rfl rfl rfl, rfl⟩

/-- Settles O41: the last record is taken and `HOTP` completes. -/
theorem hotpFinishes : Obligations.HotpFinishes := by
  unfold Obligations.HotpFinishes
  intro s d hp hd hle
  have run : exec .hotp s = .next (hotpLast (pastRecord false d s)) :=
    congrArg Host.Outcome.next ((hmacCommand_of_wait false hotpArm _ hp).trans (waitStep_of_last false _ hd hle))
  exact ⟨_, run, digestTaken_pastRecord false d s _ rfl rfl rfl, rfl⟩

/-- The number of entries fits `WCOUNT` (R45). -/
theorem toNat_wcount {n : Nat} (h : n ≤ 255) : (BitVec.ofNat 8 n).toNat = n := by
  rw [BitVec.toNat_ofNat]
  omega

/-- Settles O42: the last record is taken and `TOTP` completes with `WCOUNT`. -/
theorem totpFinishes : Obligations.TotpFinishes := by
  unfold Obligations.TotpFinishes
  intro s d past future hp hd hle hn
  have run : exec (.totp past future) s = .next (totpLast (pastRecord true d s)) :=
    congrArg Host.Outcome.next ((hmacCommand_of_wait true _ _ hp).trans (waitStep_of_last true _ hd hle))
  exact ⟨_, run, digestTaken_pastRecord true d s _ rfl rfl rfl, toNat_wcount hn, rfl⟩

/-! ## The outcome of `VERIFY` -/

/-- The comparison of `VERIFY`, read from memory (R175). -/
theorem matchAt_iff (s : State) (i : Nat) : matchAt s i = true ↔ CandidateAt s i := by
  simp [matchAt, CandidateAt, digitsOf, candBase, winEntry]

theorem bnot_matchAt {s : State} {i : Nat} (h : ¬CandidateAt s i) : (!matchAt s i) = true := by
  rw [Bool.eq_false_iff.2 (h ∘ (matchAt_iff s i).1)]
  rfl

/-- The outcome names the smallest matching position (R176). -/
theorem isSuccess_outcome {s : State} {p n i : Nat} (hi : i < n) (found : CandidateAt s i)
    (first : ∀ j, j < i → ¬CandidateAt s j) : IsSuccess (resultWord (outcomeOf s p n)) ((i : Int) - p) := by
  have position : (List.range n).find? (matchAt s) = some i := List.find?_range_eq_some.2
    ⟨(matchAt_iff s i).2 found, List.mem_range.2 hi, fun j hj => bnot_matchAt (first j hj)⟩
  rw [outcomeOf, position]
  exact isSuccess_resultWord _

/-- Without a match the outcome is `Invalid` (R176). -/
theorem invalid_outcome {s : State} {p n : Nat} (h : ∀ i, i < n → ¬CandidateAt s i) :
    resultWord (outcomeOf s p n) = 0x00000001#32 := by
  have none : (List.range n).find? (matchAt s) = none := List.find?_range_eq_none.2 fun i hi =>
    bnot_matchAt (h i hi)
  rw [outcomeOf, none]
  rfl

/-- Settles O43: the last record is taken, and `VERIFY` completes with `WCOUNT` and the outcome of the window just written. -/
theorem verifyFinishes : Obligations.VerifyFinishes := by
  unfold Obligations.VerifyFinishes
  intro s d hp hd hle hn
  have run : exec .verify s = .next (verifyLast (pastRecord true d s)) :=
    congrArg Host.Outcome.next ((hmacCommand_of_wait true verifyArm _ hp).trans (waitStep_of_last true _ hd hle))
  refine ⟨_, run, digestTaken_pastRecord true d s _ rfl rfl rfl, toNat_wcount hn, ⟨?success, ?invalid⟩, rfl⟩
  case success => exact fun i hi => isSuccess_outcome (s := pastRecord true d s) hi
  case invalid => exact invalid_outcome (s := pastRecord true d s)

end Sys2Proof.Machine
end

section
/-! PROOFS. Whole commands with an HMAC unit that keeps its duty (20_memory.md R93, R94; 41_hotp.md, 42_totp.md, 43_verify.md):
the decode step, then `loop_run`, then the finalisation. -/

namespace Sys2Proof.Machine

/-- The command that was decoded in `s` and asked for `n` positions from the counter `m` on has taken its last record in `v`; in
`u` it had made no request yet. -/
structure LastTaken (w : Bool) (s u v : State) (m : DWord) (n : Nat) (es : List Event) : Prop where
  loop : Loop w s v m
  frame : v = { s with
    now := u.now, stepReg := u.stepReg, n := n, idx := n, msg0 := m, mem := v.mem, dbc := v.dbc, value := v.value, rsp := none
    phase := v.phase, draws := u.draws, inputs := es }
  digest : ∀ k, k < 64 → v.mem.read (0x0C0 + k) = (dutyDigest s m (n - 1)).getD k 0#8
  dbc : v.dbc = dbcOf (dutyDigest s m (n - 1))
  value : v.value.toNat = dutyValue s m (n - 1)
  code : HoldsCode v.mem 0x098 v.value.toNat s.act.digits.toNat

/-- From a decode step that asks for `n` positions the command takes its last record after `1 + 2 n` steps, and then it is
finalised. -/
theorem run_command (c : Instr) (w : Bool) (start last : State → State)
    (hc : ∀ s, exec c s = .next (hmacCommand w start last s)) {s u : State} {m : DWord} {n : Nat} {es : List Event}
    (hs : s.secretLen.toNat ≤ 128) (hr : s.rstN = true) (hd : decode s.ir = .ok c) (ho : s.owed = []) (h1 : step s = .next u)
    (hn : 1 ≤ n) (begins : u = { s with
      now := u.now, stepReg := u.stepReg, n := n, idx := 0, msg0 := m, phase := .req, draws := u.draws
      inputs := exchanges n ++ es }) :
    ∃ v, Sys2Proof.core.run (1 + 2 * n) s = .next (last v) ∧ LastTaken w s u v m n es := by
  have count : u.n = n := by rw [begins]
  have idx : u.idx = 0 := by rw [begins]
  have loop : Loop w s u m :=
    { first := by rw [begins]
      win := fun _ i hi => by omega
      rest := fun a _ _ _ => by rw [begins]
      frame := by rw [begins] }
  obtain ⟨v, u', run, hL, hidx, hcount, hinputs, hrsp, hnow, hstep, hdraws, taken, act⟩ :=
    loop_run c w start last hc s m es hs hr hd ho n u hn (by omega) loop (by rw [begins]) (by rw [begins])
  rw [count] at hidx hcount taken
  have value : v.value.toNat = dutyValue s m (n - 1) := by rw [taken.value, act]; rfl
  refine ⟨v, ?_, hL, ?_, taken.digest, taken.dbc, value, act ▸ taken.code⟩
  · rw [Nat.add_comm, core_run_succ _ _ _ h1, run]
  · have frame := hL.frame
    rwa [hidx, hinputs, hrsp, hnow, hstep, hcount, hL.first, hdraws] at frame

/-! ## HOTP -/

/-- Settles O45: `run_command` with one position. -/
theorem hotpCommandCode : Obligations.HotpCommandCode := by
  unfold Obligations.HotpCommandCode
  intro s es hr hp hd hs ho hi
  have h1 : step s = .next (hotpArm { s with inputs := exchanges 1 ++ es }) :=
    (step_turn hr hd hi (.inl hp)).trans (exec_hotp_decode hp hs)
  obtain ⟨v, run, last⟩ := run_command .hotp false hotpArm hotpLast (fun _ => rfl) hs hr hd ho h1 (Nat.le_refl 1) rfl
  refine ⟨hotpLast v, run, ⟨last.digest, last.dbc, last.value, last.code, nofun, nofun, fun a ha hc _ => ?rest⟩, ?frame⟩
  case rest => exact last.loop.rest a ha hc (by simp)
  case frame => exact congrArg (complete .none) last.frame

/-! ## The window commands -/

/-- The decode step of a window command whose window is in int64. -/
theorem step_windowArm {c : Instr} {p f n : Nat} {s : State} {es : List Event} (hr : s.rstN = true)
    (hp : s.phase = .decode) (hd : decode s.ir = .ok c) (hi : s.inputs = .turn :: exchanges n ++ es)
    (run : exec c { s with inputs := exchanges n ++ es } = .next (windowArm p f { s with inputs := exchanges n ++ es }))
    (oldest : -2 ^ 63 ≤ stepNow s - p) (newest : stepNow s + f ≤ 2 ^ 63 - 1) : step s = .next { s with
      now := clockNow s, stepReg := BitVec.ofInt 64 (stepNow s), n := p + 1 + f, idx := 0
      msg0 := BitVec.ofInt 64 (stepNow s - p), phase := .req, draws := s.draws + 1, inputs := exchanges n ++ es } :=
  (step_turn hr hd hi (.inl hp)).trans (run.trans (congrArg Host.Outcome.next (windowArm_eq _ oldest newest)))

/-- Settles O46: `run_command` with the window of the clamped immediates; the entries by the loop's invariant. -/
theorem totpCommandWindow : Obligations.TotpCommandWindow := by
  unfold Obligations.TotpCommandWindow
  intro s es past future q n hr hp hd hs ho hq oldest newest hn hi
  obtain rfl : q = stepNow s := hq
  rw [← coe_clamp0] at oldest newest
  rw [← coe_clamp0, ← coe_clamp0] at hn
  obtain rfl : n = clamp0 past + 1 + clamp0 future := by omega
  obtain ⟨atLeastOne, atMost⟩ := requestCount_bounds (s := s) hd rfl
  have h1 := step_windowArm hr hp hd hi (exec_totp_decode past future hp hs) oldest newest
  obtain ⟨v, run, last⟩ :=
    run_command (.totp past future) true _ totpLast (fun _ => rfl) hs hr hd ho h1 atLeastOne rfl
  have count : v.n = clamp0 past + 1 + clamp0 future := by rw [last.frame]
  have idx : v.idx = clamp0 past + 1 + clamp0 future := by rw [last.frame]
  have first : (totpLast v).msg0 = BitVec.ofInt 64 (stepNow s - clamp0 past) := last.loop.first
  rw [← coe_clamp0]
  refine ⟨totpLast v, run, ?_⟩
  rw [first]
  refine ⟨?count, ?frame, fun i hi => last.loop.win rfl i (idx.symm ▸ hi), last.dbc, last.value, last.code,
    last.digest, fun a ha hc hw => ?rest⟩
  case count => exact (congrArg (fun k => (BitVec.ofNat 8 k).toNat) count).trans (toNat_wcount atMost)
  case frame =>
    exact congrArg (fun u => complete .none { u with wcount := (totpLast v).wcount }) last.frame
  case rest => exact last.loop.rest a ha hc (by rw [idx]; exact fun h => hw h.2)

/-- After the last record the candidate, which no position overwrites, is compared with the codes of the duty (R175). -/
theorem LastTaken.candidateAt_iff {s u v : State} {m : DWord} {n : Nat} {es : List Event} (h : LastTaken true s u v m n es)
    (hd : s.act.digits.toNat ≤ 10) {i : Nat} (hi : i < n) : CandidateAt v i ↔ CandidateIsCode s m i := by
  have idx : v.idx = n := by rw [h.frame]
  have len : v.candLen = s.candLen := by rw [h.frame]
  have act : v.act = s.act := h.loop.act
  have cand (k : Nat) (hk : k < s.act.digits.toNat) : v.mem.read (0x070 + k) = s.mem.read (0x070 + k) :=
    h.loop.rest _ (by unfold Within digestBase; omega) (by unfold Within codeBase; omega) (by unfold Within; omega)
  have window (k : Nat) (hk : k < s.act.digits.toNat) :
      v.mem.read (0x1000 + 16 * i + k) = codeByte (dutyValue s m i) s.act.digits.toNat k :=
    (h.loop.win rfl i (idx.symm ▸ hi)).1 k (by omega)
  unfold CandidateAt CandidateIsCode
  rw [len, act]
  refine and_congr_right fun _ => forall₂_congr fun k hk => ?_
  rw [cand k hk, window k hk]

/-- Settles O47: `run_command` with the configured window; `RESULT` is the outcome of comparing the candidate with the codes of
the duty (`LastTaken.candidateAt_iff`). -/
theorem verifyCommandOutcome : Obligations.VerifyCommandOutcome := by
  unfold Obligations.VerifyCommandOutcome
  intro s es q n hr hp hd hs hdigits ho hq oldest newest hn hi
  obtain rfl : q = stepNow s := hq
  obtain ⟨atLeastOne, atMost⟩ := requestCount_bounds (s := s) hd (congrArg some hn.symm)
  rw [hn] at hi
  have h1 := step_windowArm hr hp hd hi (exec_verify_decode hp hs) oldest newest
  rw [← hn] at h1
  obtain ⟨v, run, last⟩ := run_command .verify true verifyArm verifyLast (fun _ => rfl) hs hr hd ho h1 atLeastOne rfl
  have count : v.n = n := by rw [last.frame]
  have idx : v.idx = n := by rw [last.frame]
  have first : (verifyLast v).msg0 = BitVec.ofInt 64 (stepNow s - s.act.past.toNat) := last.loop.first
  have result : (verifyLast v).result = resultWord (outcomeOf v s.act.past.toNat n) := by
    rw [← count, ← last.loop.act]
    rfl
  refine ⟨verifyLast v, run, ?_⟩
  rw [first]
  refine ⟨?count, ?frame, fun i hi found earlier => ?success, fun noMatch => ?invalid,
    fun i hi => (last.loop.win rfl i (idx.symm ▸ hi)).1⟩
  case count => exact (congrArg (fun k => (BitVec.ofNat 8 k).toNat) count).trans (toNat_wcount atMost)
  case frame =>
    exact congrArg (fun u => complete .none { u with
      wcount := (verifyLast v).wcount, result := (verifyLast v).result }) last.frame
  case success =>
    rw [result]
    exact isSuccess_outcome hi ((last.candidateAt_iff hdigits hi).2 found) fun j hj =>
      mt (last.candidateAt_iff hdigits (hj.trans hi)).1 (earlier j hj)
  case invalid =>
    rw [result]
    exact invalid_outcome fun i hi => mt (last.candidateAt_iff hdigits hi).1 (noMatch i hi)

end Sys2Proof.Machine
end

section
/-! PROOFS. What the commands do not read: the staged configuration, but for `INIT` (44_config.md R188), and the candidate, but
for the outcome of `VERIFY` (43_verify.md R180). -/

namespace Sys2Proof.Machine

/-! ## The staged configuration -/

/-- The state with another staged configuration. -/
def withStaged (c : Staged) (s : State) : State := { s with cfg := c }

/-- An operation that does not read the staged configuration: it does the same under any other. -/
def IgnoresStaged (f : State → State) : Prop := ∀ c s, f (withStaged c s) = withStaged c (f s)

theorem ignoresStaged_truncArm : IgnoresStaged truncArm := fun _ _ => rfl
theorem ignoresStaged_hotpArm : IgnoresStaged hotpArm := fun _ _ => rfl
theorem ignoresStaged_totpLast : IgnoresStaged totpLast := fun _ _ => rfl
theorem ignoresStaged_hotpLast : IgnoresStaged hotpLast := fun _ _ => rfl
theorem ignoresStaged_verifyLast : IgnoresStaged verifyLast := fun _ _ => rfl

/-- A test that does not read the staged configuration chooses the same branch. -/
theorem ite_withStaged {b : Prop} [Decidable b] {c : Staged} {s s' u u' : State} (hs : s' = withStaged c s)
    (hu : u' = withStaged c u) : (if b then s' else u') = withStaged c (if b then s else u) := by
  split
  · exact hs
  · exact hu

theorem ignoresStaged_stepArm : IgnoresStaged stepArm := fun _ _ => ite_withStaged rfl rfl

theorem ignoresStaged_windowArm (p f : Nat) : IgnoresStaged (windowArm p f) := fun _ _ => ite_withStaged rfl rfl

theorem ignoresStaged_verifyArm : IgnoresStaged verifyArm := fun c s => ignoresStaged_windowArm _ _ c s

theorem ignoresStaged_storeCode (w : Bool) (h : List Byte) : IgnoresStaged (storeCode w h) := by
  intro c s
  cases w <;> rfl

theorem ignoresStaged_atDecode {arm : State → State} (h : IgnoresStaged arm) : IgnoresStaged (atDecode arm) :=
  fun c s => ite_withStaged (h c s) rfl

theorem ignoresStaged_advance {last : State → State} (h : IgnoresStaged last) : IgnoresStaged (advance last) :=
  fun c s => ite_withStaged rfl (h c { s with idx := s.idx + 1 })

theorem ignoresStaged_waitStep (w : Bool) {last : State → State} (h : IgnoresStaged last) :
    IgnoresStaged (waitStep w last) := by
  intro c s
  have port : (withStaged c s).rsp = s.rsp := rfl
  rw [waitStep, waitStep, port]
  cases s.rsp with
  | none => rfl
  | some d =>
    have stored := ignoresStaged_storeCode w (usedBytes s d) c { s with rsp := none }
    exact (congrArg (advance last) stored).trans (ignoresStaged_advance h c _)

theorem ignoresStaged_hmacCommand (w : Bool) {start last : State → State} (hstart : IgnoresStaged start)
    (hlast : IgnoresStaged last) : IgnoresStaged (hmacCommand w start last) := by
  intro c s
  have phase : (withStaged c s).phase = s.phase := rfl
  rw [hmacCommand, hmacCommand, phase]
  cases s.phase with
  | idle => rfl
  | decode => exact ite_withStaged rfl (hstart c s)
  | req => rfl
  | wait => exact ignoresStaged_waitStep w hlast c s

/-- Settles O23: every command but `INIT` is made of operations that do not read the staged configuration. -/
theorem stagedReadOnlyByInit : Obligations.StagedReadOnlyByInit := by
  unfold Obligations.StagedReadOnlyByInit
  intro i s t c notInit h
  cases i with
  | init => exact absurd rfl notInit
  | trunc => cases h; exact congrArg _ (ignoresStaged_atDecode ignoresStaged_truncArm c s)
  | step => cases h; exact congrArg _ (ignoresStaged_atDecode ignoresStaged_stepArm c s)
  | hotp => cases h; exact congrArg _ (ignoresStaged_hmacCommand false ignoresStaged_hotpArm ignoresStaged_hotpLast c s)
  | totp past future =>
    cases h
    exact congrArg _ (ignoresStaged_hmacCommand true (ignoresStaged_windowArm _ _) ignoresStaged_totpLast c s)
  | verify => cases h; exact congrArg _ (ignoresStaged_hmacCommand true ignoresStaged_verifyArm ignoresStaged_verifyLast c s)

/-! ## The candidate -/

/-- Two states that differ in the candidate, its length and `RESULT` only. -/
inductive SameButCandidate (s : State) : State → Prop where
  | intro (len : Word) (m : Memory) (r : Word) (h : ∀ a, ¬Within 0x070 12 a → m.read a = s.mem.read a) :
      SameButCandidate s { s with candLen := len, mem := m, result := r }

namespace SameButCandidate

theorem frame {s s' : State} (h : SameButCandidate s s') :
    s' = { s with candLen := s'.candLen, mem := s'.mem, result := s'.result } := by
  cases h
  rfl

theorem mem {s s' : State} (h : SameButCandidate s s') : ∀ a, ¬Within 0x070 12 a → s'.mem.read a = s.mem.read a := by
  cases h with
  | intro _ _ _ hm => exact hm

/-- A test that does not read the candidate chooses the same branch. -/
theorem ite {b : Prop} [Decidable b] {s s' u u' : State} (hs : SameButCandidate s s') (hu : SameButCandidate u u') :
    SameButCandidate (if b then s else u) (if b then s' else u') := by
  split
  · exact hs
  · exact hu

theorem verifyArm {s s' : State} (h : SameButCandidate s s') : SameButCandidate (verifyArm s) (verifyArm s') := by
  cases h with
  | intro len m r hm => exact .ite (.intro len m r hm) (.intro len m r hm)

/-- The request is the same: it reads `SECRET`, the lengths and the position (R128). -/
theorem requestStep {s s' : State} (h : SameButCandidate s s') : SameButCandidate (requestStep s) (requestStep s') := by
  cases h with
  | intro len m r hm =>
    have key : m.readBytes secretBase s.secretLen.toNat = secretKey s :=
      Memory.readBytes_congr _ _ _ _ fun j _ => hm _ (by unfold Within secretBase; omega)
    have request : requestFor { s with candLen := len, mem := m, result := r } = requestFor s := by
      rw [requestFor, requestFor, ← key]
      rfl
    rw [Machine.requestStep, Machine.requestStep, request]
    exact .intro len m r hm

/-- A record is stored the same, outside the candidate. -/
theorem recordTaken {s s' : State} (h : SameButCandidate s s') (d : Digest) :
    SameButCandidate (recordTaken true d s) (recordTaken true d s') := by
  cases h with
  | intro len m r hm =>
    have short : (usedBytes s d).length ≤ 64 := (length_usedBytes s d).trans_le (digestLen_le _)
    refine .intro len (Machine.recordTaken true d { s with candLen := len, mem := m, result := r }).mem r fun a ha => ?_
    have stored := read_storeCode true (usedBytes s d) { s with rsp := none } a short
    have stored' := read_storeCode true (usedBytes s d) { s with candLen := len, mem := m, result := r, rsp := none } a short
    rw [hm a ha] at stored'
    exact stored'.trans stored.symm

theorem advance {s s' : State} (h : SameButCandidate s s') :
    SameButCandidate (advance verifyLast s) (advance verifyLast s') := by
  cases h with
  | intro len m r hm => exact .ite (.intro len m r hm) (.intro len m _ hm)

theorem waitStep {s s' : State} (h : SameButCandidate s s') :
    SameButCandidate (waitStep true verifyLast s) (waitStep true verifyLast s') := by
  have port : s'.rsp = s.rsp := by rw [h.frame]
  rw [Machine.waitStep, Machine.waitStep, port]
  cases s.rsp with
  | none => exact h
  | some d => exact (h.recordTaken d).advance

/-- `VERIFY`'s step by phase: each keeps the two states equal but for the candidate and `RESULT`. -/
theorem hmacCommand {s s' : State} (h : SameButCandidate s s') :
    SameButCandidate (hmacCommand true Machine.verifyArm verifyLast s) (hmacCommand true Machine.verifyArm verifyLast s') := by
  have phase : s'.phase = s.phase := by rw [h.frame]
  rw [Machine.hmacCommand, Machine.hmacCommand, phase]
  cases s.phase with
  | idle => exact h
  | decode =>
    have arm := h.verifyArm
    cases h with
    | intro len m r hm => exact .ite (.intro len m r hm) arm
  | req => exact h.requestStep
  | wait => exact h.waitStep

end SameButCandidate

/-- Settles O44: the states stay equal but for the candidate and `RESULT`, and no command writes the candidate's length. -/
theorem verifyStepsIgnoreCandidate : Obligations.VerifyStepsIgnoreCandidate := by
  unfold Obligations.VerifyStepsIgnoreCandidate
  intro s t len m hm h
  cases h
  have same := (SameButCandidate.intro (s := s) len m s.result hm).hmacCommand
  have kept := (exec_cases (i := .verify) (s := { s with candLen := len, mem := m }) rfl).keepsOperands.candLen
  refine ⟨_, rfl, ?_, same.mem⟩
  have frame := same.frame
  rwa [kept] at frame

end Sys2Proof.Machine
end

section
/-! PROOFS. The host port by byte address (10_state.md R20, R21, R36; 20_memory.md R72 to R79). -/

namespace Sys2Proof.Machine

/-! ## The words of registers -/

theorem loWord_eq (x : DWord) : loWord x = x.setWidth 32 := by
  rw [← BitVec.toNat_inj, loWord, BitVec.extractLsb'_toNat, BitVec.toNat_setWidth, Nat.shiftRight_zero]

theorem hiWord_eq (x : DWord) : hiWord x = (x >>> 32).setWidth 32 := rfl

theorem ctrlWord_eq (s : State) : ctrlWord s = (BitVec.ofBool s.ie).setWidth 32 := by
  cases h : s.ie <;> simp [ctrlWord, h]

theorem algCode_eq (a : Alg) : algCode a = if a = .sha1 then 0#32 else if a = .sha256 then 1#32 else 2#32 := by
  cases a <;> rfl

/-! ## The map by byte address -/

/-- The byte addresses of a register's words (R20), as the statements spell them out. -/
def Reg.At : Reg → Nat → Prop
  | .cmd, a => a = 0x000
  | .status, a => a = 0x004
  | .ctrl, a => a = 0x008
  | .result, a => a = 0x00C
  | .id, a => a = 0x010
  | .cap, a => a = 0x014
  | .cfgAlg, a => a = 0x020
  | .cfgDigits, a => a = 0x024
  | .cfgStep, a => a = 0x028
  | .cfgStartLo, a => a = 0x030
  | .cfgStartHi, a => a = 0x034
  | .cfgPast, a => a = 0x038
  | .cfgFuture, a => a = 0x03C
  | .actAlg, a => a = 0x040
  | .actDigits, a => a = 0x044
  | .actStep, a => a = 0x048
  | .actStartLo, a => a = 0x050
  | .actStartHi, a => a = 0x054
  | .actPast, a => a = 0x058
  | .actFuture, a => a = 0x05C
  | .counterLo, a => a = 0x060
  | .counterHi, a => a = 0x064
  | .secretLen, a => a = 0x068
  | .candLen, a => a = 0x06C
  | .nowLo, a => a = 0x080
  | .nowHi, a => a = 0x084
  | .stepLo, a => a = 0x088
  | .stepHi, a => a = 0x08C
  | .value, a => a = 0x090
  | .wcount, a => a = 0x094
  | .dbc, a => a = 0x0A4
  | .cand b, a => a = b ∧ 0x070 ≤ a ∧ a ≤ 0x078
  | .code b, a => a = b ∧ 0x098 ≤ a ∧ a ≤ 0x0A0
  | .digest b, a => a = b ∧ 0x0C0 ≤ a ∧ a ≤ 0x0FC
  | .secret b, a => a = b ∧ 0x100 ≤ a ∧ a ≤ 0x17C
  | .win b, a => a = b ∧ 0x1000 ≤ a ∧ a ≤ 0x1FEC
  | .reserved, a => a = 0x018 ∨ a = 0x01C ∨ a = 0x02C ∨ a = 0x04C ∨ a = 0x07C ∨ (0x0A8 ≤ a ∧ a ≤ 0x0BC) ∨
      (0x180 ≤ a ∧ a ≤ 0xFFC) ∨ 0x1FF0 ≤ a

/-- The words of the register page that no register has, apart from the buffers (R20). -/
theorem regTable_gaps : ∀ k < 0x02A, regTable.lookup k = none → (0x01C ≤ k ∧ k ≤ 0x01E) ∨ (0x026 ≤ k ∧ k ≤ 0x028) ∨
    k = 0x006 ∨ k = 0x007 ∨ k = 0x00B ∨ k = 0x013 ∨ k = 0x01F := by decide

/-- A word index names the register at its byte address. -/
theorem regAt_at (w : BitVec 11) : (regAt w).At (4 * w.toNat) := by
  have single : ∀ p ∈ regTable, p.2.At (4 * p.1) := by simp [regTable, Reg.At]
  simp only [regAt]
  split_ifs with cand code digest secret win
  · exact ⟨rfl, by omega, by omega⟩
  · exact ⟨rfl, by omega, by omega⟩
  · exact ⟨rfl, by omega, by omega⟩
  · exact ⟨rfl, by omega, by omega⟩
  · exact ⟨rfl, by omega, by omega⟩
  · cases found : regTable.lookup w.toNat with
    | some r =>
      obtain ⟨l, m, split, _⟩ := List.lookup_eq_some_iff.1 found
      exact single (w.toNat, r) (by rw [split]; simp)
    | none =>
      simp only [Option.getD_none, Reg.At]
      by_cases page : w.toNat < 0x02A
      · have gaps := regTable_gaps w.toNat page found
        omega
      · omega

/-! ## Reads -/

/-- What a read returns (R72, R75). -/
def portWord (s : State) (r : Reg) : Word := if unspecified s r then Config.busyRead s.draws else regWord s r

theorem hostRead_eq (w : BitVec 11) (s : State) : hostRead w s = { s with
    readData := some (portWord s (regAt w)), draws := if unspecified s (regAt w) then s.draws + 1 else s.draws } := by
  unfold hostRead portWord
  split <;> rfl

/-- With the reset pin high a listed read is the next step (R72, R81). -/
theorem step_read {s : State} {w : BitVec 11} {es : List Event} (hr : s.rstN = true) (hi : s.inputs = .read w :: es) :
    step s = .next (hostRead w { s with inputs := es }) := by
  refine step_of_fetch_none ((fetch_of_event hi).trans ?_)
  simp only [perform, served, if_pos hr]
  rw [hostRead_eq, hostRead_eq]
  rfl

/-- Settles O53: no register's word is made of bytes of `SECRET`. -/
theorem secretIsNotReadable : Obligations.SecretIsNotReadable := by
  unfold Obligations.SecretIsNotReadable
  intro s m w hm
  have bytes (a : Nat) (ha : ∀ j, j < 4 → ¬(0x100 ≤ a + j ∧ a + j ≤ 0x17F)) : m.readWord a = s.mem.readWord a :=
    Memory.readWord_congr _ _ _ fun j hj => hm _ (ha j hj)
  have word : regWord { s with mem := m } (regAt w) = regWord s (regAt w) := by
    have mapped := regAt_at w
    cases h : regAt w with
    | cand | code | digest | win =>
      rw [h] at mapped
      obtain ⟨rfl, low, high⟩ := mapped
      exact bytes _ fun j hj => by omega
    | _ => rfl
  rw [hostRead_eq, hostRead_eq, portWord, portWord, word]
  rfl

/-- The byte addresses of the words whose read is unspecified while `BUSY = 1` (R75). -/
abbrev ResultAddress (a : Nat) : Prop :=
  (0x040 ≤ a ∧ a ≤ 0x048) ∨ (0x050 ≤ a ∧ a ≤ 0x05C) ∨ (0x080 ≤ a ∧ a ≤ 0x0A4) ∨ (0x0C0 ≤ a ∧ a ≤ 0x0FC) ∨
    (0x1000 ≤ a ∧ a ≤ 0x1FEC)

theorem isResult_iff {r : Reg} {a : Nat} (h : r.At a) : isResult r = true ↔ ResultAddress a := by
  cases r with
  | cand | code | digest | secret | win =>
    obtain ⟨rfl, low, high⟩ := h
    simp only [isResult, reduceCtorEq, true_iff, false_iff]
    omega
  | reserved =>
    unfold Reg.At at h
    simp only [isResult, reduceCtorEq, false_iff]
    omega
  | _ =>
    obtain rfl := h
    decide

/-- The result word at a byte address, with `ACT_ALG` as its code (R20, R27). -/
def resultWordAt (s : State) (a : Nat) : Word :=
  if a = 0x040 then (if s.act.alg = .sha1 then 0#32 else if s.act.alg = .sha256 then 1#32 else 2#32)
  else if a = 0x044 then s.act.digits.setWidth 32
  else if a = 0x048 then s.act.stepSeconds
  else if a = 0x050 then s.act.startTime.setWidth 32
  else if a = 0x054 then (s.act.startTime >>> 32).setWidth 32
  else if a = 0x058 then s.act.past.setWidth 32
  else if a = 0x05C then s.act.future.setWidth 32
  else if a = 0x080 then s.now.setWidth 32
  else if a = 0x084 then (s.now >>> 32).setWidth 32
  else if a = 0x088 then s.stepReg.setWidth 32
  else if a = 0x08C then (s.stepReg >>> 32).setWidth 32
  else if a = 0x090 then s.value
  else if a = 0x094 then s.wcount.setWidth 32
  else if a = 0x0A4 then s.dbc.setWidth 32
  else s.mem.readWord a

theorem regWord_of_isResult (s : State) {r : Reg} {a : Nat} (h : r.At a) (hr : isResult r = true) :
    regWord s r = resultWordAt s a := by
  cases r with
  | actAlg => obtain rfl := h; exact algCode_eq _
  | actStartLo | nowLo | stepLo => obtain rfl := h; exact loWord_eq _
  | actStartHi | nowHi | stepHi => obtain rfl := h; exact hiWord_eq _
  | actDigits | actStep | actPast | actFuture | value | wcount | dbc => obtain rfl := h; rfl
  | code | digest | win =>
    obtain ⟨rfl, low, high⟩ := h
    unfold resultWordAt
    repeat rw [if_neg (by omega)]
    rfl
  | _ => cases hr

/-- The word at any other byte address: `SECRET` and the reserved words read 0 (R20, R36). -/
def otherWordAt (s : State) (a : Nat) : Word :=
  if a = 0x000 then s.ir
  else if a = 0x004 then s.status.word
  else if a = 0x008 then (BitVec.ofBool s.ie).setWidth 32
  else if a = 0x00C then s.result
  else if a = 0x010 then 0x31544D01#32
  else if a = 0x014 then 0x00FF7F80#32
  else if a = 0x020 then s.cfg.alg
  else if a = 0x024 then s.cfg.digits
  else if a = 0x028 then s.cfg.stepSeconds
  else if a = 0x030 then s.cfg.startTime.setWidth 32
  else if a = 0x034 then (s.cfg.startTime >>> 32).setWidth 32
  else if a = 0x038 then s.cfg.past
  else if a = 0x03C then s.cfg.future
  else if a = 0x060 then s.counter.setWidth 32
  else if a = 0x064 then (s.counter >>> 32).setWidth 32
  else if a = 0x068 then s.secretLen
  else if a = 0x06C then s.candLen
  else if 0x070 ≤ a ∧ a ≤ 0x078 then s.mem.readWord a
  else 0x00000000#32

theorem regWord_of_not_isResult (s : State) {r : Reg} {a : Nat} (h : r.At a) (hr : isResult r = false) :
    regWord s r = otherWordAt s a := by
  cases r with
  | ctrl => obtain rfl := h; exact ctrlWord_eq s
  | cfgStartLo | counterLo => obtain rfl := h; exact loWord_eq _
  | cfgStartHi | counterHi => obtain rfl := h; exact hiWord_eq _
  | cmd | status | result | id | cap | cfgAlg | cfgDigits | cfgStep | cfgPast | cfgFuture | secretLen | candLen =>
    obtain rfl := h
    rfl
  | cand =>
    obtain ⟨rfl, low, high⟩ := h
    unfold otherWordAt
    repeat rw [if_neg (by omega)]
    rw [if_pos ⟨low, high⟩]
    rfl
  | secret =>
    obtain ⟨rfl, low, high⟩ := h
    unfold otherWordAt
    repeat rw [if_neg (by omega)]
    rfl
  | reserved =>
    unfold Reg.At at h
    unfold otherWordAt
    repeat rw [if_neg (by omega)]
    rfl
  | _ => cases hr

/-- Settles O49: the read returns `portWord` of the register at the address. -/
theorem readByRegion : Obligations.ReadByRegion := by
  unfold Obligations.ReadByRegion
  intro s w es a hr hi ha
  have mapped : (regAt w).At a := ha ▸ regAt_at w
  have isRes := isResult_iff mapped
  refine ⟨_, portWord { s with inputs := es } (regAt w), step_read hr hi, by rw [hostRead_eq], ?_⟩
  rw [hostRead_eq]
  by_cases result : ResultAddress a
  · rw [if_pos result]
    have res := isRes.2 result
    have word := regWord_of_isResult { s with inputs := es } mapped res
    by_cases hb : s.status.busy = true
    · have free : unspecified { s with inputs := es } (regAt w) = true := by simp [unspecified, hb, res]
      rw [if_pos hb, portWord, if_pos free, if_pos free]
      exact ⟨rfl, rfl⟩
    · have fixed : unspecified { s with inputs := es } (regAt w) ≠ true := by simp [unspecified, hb]
      rw [if_neg hb, portWord, if_neg fixed, if_neg fixed]
      exact ⟨rfl, word⟩
  · rw [if_neg result]
    have res := Bool.eq_false_iff.2 (mt isRes.1 result)
    have fixed : unspecified { s with inputs := es } (regAt w) ≠ true := by simp [unspecified, res]
    rw [portWord, if_neg fixed, if_neg fixed]
    exact ⟨rfl, regWord_of_not_isResult { s with inputs := es } mapped res⟩

/-! ## The bits of `STATUS` -/

/-- The number of an error code, as the statements spell it out (R200). -/
theorem toNat_code (c : ErrCode) : c.code.toNat = if c = .none then 0 else if c = .illegal then 1 else if c = .config then 2
    else if c = .secret then 3 else 4 := by
  cases c <;> rfl

/-- `ERRCODE` lies above the four bits that come after it in the word (R21). -/
theorem Status.extractLsb'_word (t : Status) : t.word.extractLsb' 4 4 = t.errcode.code := by
  have above {n k : Nat} (x : BitVec n) (b : BitVec 1) : (x ++ b).extractLsb' (k + 1) 4 = x.extractLsb' k 4 :=
    BitVec.extractLsb'_append_eq_of_le (Nat.le_add_left 1 k)
  exact (above _ _).trans ((above _ _).trans ((above _ _).trans ((above _ _).trans BitVec.extractLsb'_append_eq_right)))

/-- From bit 8 on the word is `WDROP` and zeros (R21). -/
theorem Status.getLsbD_word_add (t : Status) (k : Nat) :
    t.word.getLsbD (k + 8) = (0#23 ++ BitVec.ofBool t.wdrop).getLsbD k := by
  have above {n m j : Nat} (x : BitVec n) (y : BitVec m) : (x ++ y).getLsbD (j + m) = x.getLsbD j := by
    rw [BitVec.getLsbD_append, if_neg (by omega), Nat.add_sub_cancel]
  exact (above _ _).trans ((above _ _).trans ((above _ _).trans ((above _ _).trans (above _ _))))

/-- Settles O50: the word is packed from the top bit down, so a bit is found by skipping the fields after it. -/
theorem statusBits : Obligations.StatusBits := by
  unfold Obligations.StatusBits
  intro t
  refine ⟨?busy, Status.getLsbD_word_one t, ?err, ?errcode, ?wdrop, fun i hi => ?zero⟩
  case busy => exact BitVec.getLsbD_concat_zero
  case err => exact BitVec.getLsbD_concat_succ.trans (BitVec.getLsbD_concat_succ.trans BitVec.getLsbD_concat_zero)
  case errcode => rw [Status.extractLsb'_word, toNat_code]
  case wdrop => exact (Status.getLsbD_word_add t 0).trans BitVec.getLsbD_concat_zero
  case zero =>
    rcases hi with rfl | hi
    · exact BitVec.getLsbD_concat_succ.trans (BitVec.getLsbD_concat_succ.trans (BitVec.getLsbD_concat_succ.trans
        (BitVec.getLsbD_concat_zero (b := false))))
    · obtain ⟨k, rfl⟩ := Nat.exists_eq_add_of_le' hi
      exact (Status.getLsbD_word_add t (k + 1)).trans (BitVec.getLsbD_concat_succ.trans BitVec.getLsbD_zero)

/-! ## Writes -/

/-- The byte addresses of the words whose write is dropped while `BUSY = 1` (R77). -/
abbrev OperandAddress (a : Nat) : Prop :=
  a = 0x000 ∨ (0x020 ≤ a ∧ a ≤ 0x028) ∨ (0x030 ≤ a ∧ a ≤ 0x03C) ∨ (0x060 ≤ a ∧ a ≤ 0x078) ∨ (0x0C0 ≤ a ∧ a ≤ 0x17C)

theorem isOperand_iff {r : Reg} {a : Nat} (h : r.At a) : isOperand r = true ↔ OperandAddress a := by
  cases r with
  | cand | code | digest | secret | win =>
    obtain ⟨rfl, low, high⟩ := h
    simp only [isOperand, reduceCtorEq, true_iff, false_iff]
    omega
  | reserved =>
    unfold Reg.At at h
    simp only [isOperand, reduceCtorEq, false_iff]
    omega
  | _ =>
    obtain rfl := h
    decide

/-- What a taken write of an operand word stores, by byte address (R20, R73). -/
def storeOperandAt (v : Word) (s : State) (a : Nat) : State :=
  if a = 0x000 then
    { s with
      ir := v, result := 0#32, phase := .decode
      status := { busy := true, done := false, err := false, errcode := .none, wdrop := s.status.wdrop } }
  else if a = 0x020 then { s with cfg := { s.cfg with alg := v } }
  else if a = 0x024 then { s with cfg := { s.cfg with digits := v } }
  else if a = 0x028 then { s with cfg := { s.cfg with stepSeconds := v } }
  else if a = 0x030 then { s with cfg := { s.cfg with startTime := (s.cfg.startTime >>> 32).setWidth 32 ++ v } }
  else if a = 0x034 then { s with cfg := { s.cfg with startTime := v ++ s.cfg.startTime.setWidth 32 } }
  else if a = 0x038 then { s with cfg := { s.cfg with past := v } }
  else if a = 0x03C then { s with cfg := { s.cfg with future := v } }
  else if a = 0x060 then { s with counter := (s.counter >>> 32).setWidth 32 ++ v }
  else if a = 0x064 then { s with counter := v ++ s.counter.setWidth 32 }
  else if a = 0x068 then { s with secretLen := v }
  else if a = 0x06C then { s with candLen := v }
  else { s with mem := s.mem.writeWord a v }

theorem storeReg_of_isOperand (v : Word) (s : State) {r : Reg} {a : Nat} (h : r.At a) (hr : isOperand r = true) :
    storeReg v s r = storeOperandAt v s a := by
  cases r with
  | cfgStartHi | counterHi =>
    obtain rfl := h
    rw [storeReg, setHi, loWord_eq]
    rfl
  | cmd | cfgAlg | cfgDigits | cfgStep | cfgStartLo | cfgPast | cfgFuture | counterLo | secretLen | candLen =>
    obtain rfl := h
    rfl
  | cand | digest | secret =>
    obtain ⟨rfl, low, high⟩ := h
    unfold storeOperandAt
    repeat rw [if_neg (by omega)]
    rfl
  | _ => cases hr

theorem resetAction_of_pin_high {s : State} (pinHigh : s.rstN = true) : resetAction s = { State.reset with
    inputs := s.inputs, rstN := true, clockPin := s.clockPin, owed := s.owed, readData := s.readData, draws := s.draws } := by
  rw [resetAction, pinHigh]

/-- What a write of any other word stores with the reset pin high: `STATUS` and `CTRL` are written, nothing else is
(R21, R22, R73). -/
def storeOtherAt (v : Word) (s : State) (a : Nat) : State :=
  if a = 0x004 then
    { s with status := { s.status with
        done := s.status.done && !v.getLsbD 1, wdrop := s.status.wdrop && !v.getLsbD 8 } }
  else if a = 0x008 then
    if v.getLsbD 31 = true then
      { State.reset with
        inputs := s.inputs, rstN := true, clockPin := s.clockPin, owed := s.owed, readData := s.readData
        draws := s.draws }
    else { s with ie := v.getLsbD 0 }
  else s

theorem storeReg_of_not_isOperand (v : Word) {s : State} (pinHigh : s.rstN = true) {r : Reg} {a : Nat} (h : r.At a)
    (hr : isOperand r = false) :
    storeReg v s r = storeOtherAt v s a := by
  cases r with
  | ctrl =>
    obtain rfl := h
    rw [storeReg, resetAction_of_pin_high pinHigh]
    rfl
  | code | win =>
    obtain ⟨rfl, low, high⟩ := h
    unfold storeOtherAt
    repeat rw [if_neg (by omega)]
    rfl
  | reserved =>
    unfold Reg.At at h
    unfold storeOtherAt
    repeat rw [if_neg (by omega)]
    rfl
  | cmd | cfgAlg | cfgDigits | cfgStep | cfgStartLo | cfgStartHi | cfgPast | cfgFuture | counterLo | counterHi | secretLen
  | candLen | cand | digest | secret => cases hr
  | _ =>
    obtain rfl := h
    rfl

/-- Settles O51: an operand write is dropped or stored by its address, and so is every other write. -/
theorem writeByRegion : Obligations.WriteByRegion := by
  unfold Obligations.WriteByRegion
  intro s w v es a hr hi ha
  have mapped : (regAt w).At a := ha ▸ regAt_at w
  have isOp := isOperand_iff mapped
  rw [step_write hr hi, hostWrite]
  congr 1
  by_cases operand : OperandAddress a
  · rw [if_pos operand]
    have op := isOp.2 operand
    by_cases hb : s.status.busy = true
    · rw [if_pos hb, if_pos (by simp [hb, op])]
      rfl
    · rw [if_neg hb, if_neg (by simp [hb]), storeReg_of_isOperand v _ mapped op]
      rfl
  · rw [if_neg operand]
    have op := Bool.eq_false_iff.2 (mt isOp.1 operand)
    rw [if_neg (by simp [op]), storeReg_of_not_isOperand v (s := { s with inputs := es }) hr mapped op]
    rfl

end Sys2Proof.Machine
end
